-- ==== Sys2Proof/Word.lean ====
section
/-! DEFINITION. The two widths of data in the engine (spec 00_scope.md rule R6): 32-bit words and
8-bit bytes. Arithmetic on them is in Machine/WordFunctions.lean. -/

namespace Sys2Proof

/-- A word: `WORD` = 32 bits, unsigned (R6, R8). -/
abbrev Word := BitVec 32

/-- A byte: `BYTE` = 8 bits (R6, R50). -/
abbrev Byte := BitVec 8

end Sys2Proof
end

