-- ==== Sys2Proof/Syntax.lean ====
section
/-! DEFINITION. The thirteen steps of the machine, one constructor for each row of the opcode table
(spec 30_encoding.md rules R75, R78, R79, R87), the three formats they are selected by, and the
reasons a selector selects no step. -/

namespace Sys2Proof

/-- The steps: five host commands (R75), the reset event (R79) and seven micro-operations (R78).
A micro-operation's operands are state, not encoded. -/
inductive Instr where
  /-- `START`: open a new message (R164). Its `arg` is ignored (R75, U8). -/
  | start
  /-- `PUSH b`: append one message byte, `b = arg[7:0]` (R165, R76). -/
  | push (b : Byte)
  /-- `FINISH`: close the message (R166). Its `arg` is ignored. -/
  | finish
  /-- `READ i`: read one digest byte (R167). `arg` is the whole operand field: `idx = arg[4:0]`, and
  `arg[7:5]` must be 0 (R76), which `Instr.wellFormed` checks. -/
  | read (arg : BitVec 8)
  /-- `STAT`: read the status byte (R168). Its `arg` is ignored. -/
  | stat
  /-- `RESET`: the reset step (R200). -/
  | reset
  /-- `PAD1`: the first padding fill (R115). -/
  | pad1
  /-- `PAD2`: the second padding fill (R116). -/
  | pad2
  /-- `LDW`: load one schedule word from the block buffer (R127). -/
  | ldw
  /-- `EXP`: expand one schedule word (R128). -/
  | exp
  /-- `INITW`: initialise the working registers (R142). -/
  | initw
  /-- `ROUND`: one compression round (R143). -/
  | round
  /-- `ACC`: accumulate the working registers into the running state (R144). -/
  | acc
  deriving DecidableEq, Repr

/-- What selects a step (R70, R87): the command word on the port, the `PHASE` register, or the reset
bit. -/
inductive Selector where
  /-- Format `CMD`, the 12-bit command word (R74). -/
  | cmd (c : BitVec 12)
  /-- Format `UOP`, the 4-bit micro-operation selector (R78). -/
  | uop (p : BitVec 4)
  /-- Format `RST`, the 1-bit reset event (R79). -/
  | rst (r : BitVec 1)
  deriving DecidableEq, Repr

/-- Why a selector selects no step. -/
inductive Reject where
  /-- A reserved command word (R82). -/
  | reservedCommand
  /-- `PHASE` is `IDLE`, `ABSORB` or `DONE`: the engine has no step (R78). -/
  | noEngineStep
  /-- `PHASE` in 10..15, reserved (R78, U4). -/
  | reservedPhase
  /-- The reset bit is 0: no event (R79). -/
  | noEvent
  deriving DecidableEq, Repr

end Sys2Proof
end

