-- ==== Sys2Proof/WellFormed.lean ====
section
/-! DEFINITION. The one check an instruction term needs (spec 30_encoding.md rule R76): the operand
field of `READ` has bits 7..5 zero. Every other field is legal at every value (R76, R83). -/

namespace Sys2Proof

/-- An instruction that some selector encodes (R76). -/
def Instr.wellFormed : Instr → Bool
  | .read arg => arg &&& 0xE0#8 == 0#8
  | .start => true
  | .push _ => true
  | .finish => true
  | .stat => true
  | .reset => true
  | .pad1 => true
  | .pad2 => true
  | .ldw => true
  | .exp => true
  | .initw => true
  | .round => true
  | .acc => true

end Sys2Proof
end

