-- ==== Sys2Proof/Decode.lean ====
section
/-! DEFINITION. The decoder, total on every selector and rejecting by name, and after it the encoder,
both written from the tables of spec 30_encoding.md rules R75, R78, R79 and R87. -/

namespace Sys2Proof

/-- "A word `c` selects the row whose `c and mask = match`" (R75); every other word is reserved (R82). -/
def decodeCmd (c : BitVec 12) : Except Reject Instr :=
  if c &&& 0xF00#12 = 0x100#12 then .ok .start
  else if c &&& 0xF00#12 = 0x200#12 then .ok (.push (c.setWidth 8))
  else if c &&& 0xF00#12 = 0x300#12 then .ok .finish
  else if c &&& 0xFE0#12 = 0x400#12 then .ok (.read (c.setWidth 8))
  else if c &&& 0xF00#12 = 0x500#12 then .ok .stat
  else .error .reservedCommand

/-- The micro-operation `PHASE` selects (R78). -/
def decodeUop (p : BitVec 4) : Except Reject Instr :=
  if p = 2#4 then .ok .pad1
  else if p = 3#4 then .ok .pad2
  else if p = 4#4 then .ok .ldw
  else if p = 5#4 then .ok .exp
  else if p = 6#4 then .ok .initw
  else if p = 7#4 then .ok .round
  else if p = 8#4 then .ok .acc
  else if p = 0#4 ∨ p = 1#4 ∨ p = 9#4 then .error .noEngineStep
  else .error .reservedPhase

/-- The reset bit: 1 is `RESET`, 0 is no event (R79). -/
def decodeRst (r : BitVec 1) : Except Reject Instr :=
  if r = 1#1 then .ok .reset else .error .noEvent

/-- The decoder of rule R87. -/
def decode : Selector → Except Reject Instr
  | .cmd c => decodeCmd c
  | .uop p => decodeUop p
  | .rst r => decodeRst r

/-- The encoder: ignored `arg` fields are written as 0x00, the canonical spelling of R75. -/
def encode : Instr → Selector
  | .start => .cmd 0x100
  | .push b => .cmd (0x2#4 ++ b)
  | .finish => .cmd 0x300
  | .read arg => .cmd (0x4#4 ++ arg)
  | .stat => .cmd 0x500
  | .reset => .rst 1
  | .pad1 => .uop 2
  | .pad2 => .uop 3
  | .ldw => .uop 4
  | .exp => .uop 5
  | .initw => .uop 6
  | .round => .uop 7
  | .acc => .uop 8

/-- The selector a word of the opcode table stands for. The table's widths are 12 (`CMD`), 4 (`UOP`)
and 1 (`RST`); in whole bytes these are 16, 8 and 8. Where the width is given as 8, the word 1 is the
`RST` row, since `PHASE` = 1 selects no micro-operation (R78), and every other nibble is a `UOP`
selector. A word with a bit set above its format's width stands for nothing. -/
def selectorOf (nbits w : Nat) : Option Selector :=
  if (nbits = 12 ∨ nbits = 16) ∧ w < 4096 then some (.cmd (BitVec.ofNat 12 w))
  else if (nbits = 1 ∨ nbits = 8) ∧ w = 1 then some (.rst 1)
  else if nbits = 1 ∧ w = 0 then some (.rst 0)
  else if (nbits = 4 ∨ nbits = 8) ∧ w < 16 then some (.uop (BitVec.ofNat 4 w))
  else none

/-- The instruction the decoder reads from a word numbered as the opcode table numbers it. -/
def decodeTableWord (nbits w : Nat) : Option Instr :=
  match selectorOf nbits w with
  | none => none
  | some sel =>
    match decode sel with
    | .ok i => some i
    | .error _ => none

end Sys2Proof
end

