-- ==== Sys2Proof/Config.lean ====
section
/-! DEFINITION. The sizes of rule R6, all fixed by the spec; none is left to an implementation, and the
free values: the bits of storage that nothing has written since the last reset (spec 10_state.md R43,
93_implementation_defined.md U3). The one open parameter of the spec, `PortBinding` (R7, U10), is read by
no rule and is omitted. -/

namespace Sys2Proof.Config

/-- `BLOCK`: bytes of one message block, the size of `BUF` (R6, R21). -/
abbrev blockBytes : Nat := 64

/-- `NSCHED`: schedule words of one block, the size of `W` (R6, R21). -/
abbrev scheduleWords : Nat := 64

/-- Words of `W` taken from the block itself (R52). -/
abbrev parsedWords : Nat := 16

/-- `NROUND`: rounds of one block (R6). -/
abbrev rounds : Nat := 64

/-- `PADMARK`: the first padding byte (R6). -/
abbrev padMark : Byte := 0x80

/-- `PADRESIDUE`: where the length field starts in the last block (R6, R53). -/
abbrev lengthAt : Nat := 56

/-- `LENFIELD` in bytes (R6, R53). -/
abbrev lengthBytes : Nat := 8

/-- Messages of this many bytes and more have no meaning (`MAXBYTES` + 1, R6, R114). -/
abbrev messageLimit : Nat := 2 ^ 61

/-! The free values. "The hardware itself would deliver whatever bits the element happens to hold" (R43): the
first argument counts the resets so far, the second is the element's index. DESIGN CHOICE (log entries 1 and
20, safe). -/

/-- The bits of `S[i]` that nothing has written since reset number `r`. -/
opaque unwrittenS : (r i : Nat) → Word

/-- The bits of `R[i]` that nothing has written since reset number `r`. -/
opaque unwrittenR : (r i : Nat) → Word

/-- The bits of `W[i]` that nothing has written since reset number `r`. -/
opaque unwrittenW : (r i : Nat) → Word

/-- The bits of `BUF[i]` that nothing has written since reset number `r`. -/
opaque unwrittenBUF : (r i : Nat) → Byte

end Sys2Proof.Config
end

