-- ==== Sys2Proof/Machine/State.lean ====
section
/-! DEFINITION. The state of the engine (spec 10_state.md rule R21) and, beside it, what the world
outside the engine holds for a run: the commands the host presents, whose turn it is, and the
responses delivered, with a count of resets (model's own, log entries 2 to 4 and 20). The two ROMs are constants (R40) and stand in
Machine/Rom.lean. -/

namespace Sys2Proof.Machine

/-- The ten phases of the sequencer (R30). The reserved codes 10..15 are not representable (U4). -/
inductive Phase where
  | idle
  | absorb
  | pad1
  | pad2
  | loadw
  | expand
  | initw
  | round
  | accum
  | done
  deriving DecidableEq, Repr

/-- `TAIL`: what follows the block being processed (R31). The reserved code 3 is not representable
(U4). -/
inductive Tail where
  /-- Return to `ABSORB`. -/
  | none
  /-- One more padding block follows. -/
  | more
  /-- This is the last block of the padded message. -/
  | last
  deriving DecidableEq, Repr

/-- The agent that moves next (R20, R190): the world's choice, plain data (log entry 3). -/
inductive Turn where
  /-- The reset source shows its bit (R79): 1 is the reset event (R190 (a)), 0 is no event. -/
  | rst (r : BitVec 1)
  /-- The presented command is offered to the engine (R169). -/
  | host
  /-- The engine takes its enabled micro-operation (R170). -/
  | engine
  /-- The host withdraws the presented command (R169). -/
  | withdraw
  deriving DecidableEq, Repr

/-- The fault of `exec` and `step`; it is no hardware event. The other fault of rule R187 (c), `NoValue`, is
`checkedStep`'s (Machine/Checked.lean): `step` goes on with free bits (log entry 1). -/
inductive Fault where
  /-- `BadControl`: a sequencer position outside the table of R36 (`LDW` with `T` above 15, `EXP` with
  `T` below 16; log entry 8), or a reserved `PHASE` code (U4), which `Phase` cannot hold. Raised by `LDW`
  and `EXP`; no run from reset reaches it (R38 (a), (b)). Safe: no behaviour is defined there. -/
  | badControl
  deriving DecidableEq, Repr

/-- The refusals. -/
inductive Refusal where
  /-- An instruction without a meaning; no arm of `exec` answers with it. Safe. -/
  | notModelled (mnemonic : String)
  /-- `ReservedCommand`: the host presents a reserved word, which is never accepted (R82, R186).
  Raised by `step` on the host's turn. Safe: the hardware leaves the host waiting. -/
  | reservedCommand
  deriving DecidableEq, Repr

/-- Eight 32-bit registers, `a` = element 0 to `h` = element 7 (R22, R23). -/
structure Regs8 where
  a : Word
  b : Word
  c : Word
  d : Word
  e : Word
  f : Word
  g : Word
  h : Word
  deriving DecidableEq, Repr

/-- The machine. The first nine fields are the writable state of R21, under its names; the next three are
the run's surroundings (R40), which no rule counts as state; the last selects the free values. -/
structure State where
  /-- The sequencer's phase (R30). -/
  PHASE : Phase
  /-- What follows the block now being processed (R31). -/
  TAIL : Tail
  /-- Message bytes of the current block already in `BUF` (R32). -/
  N : BitVec 6
  /-- The schedule-word and round index (R33). -/
  T : BitVec 6
  /-- Message bits accepted since `START`, modulo 2^64 (R34). -/
  LEN : BitVec 64
  /-- The state register file `S[0..7]`; `none` where it holds no value (R22, R43, log entry 1): no step has
  written it since reset, and a read delivers free bits. -/
  S : Option Regs8
  /-- The working registers `R[0..7]` = `a..h`; `none` where they hold no value (R23, R43). -/
  R : Option Regs8
  /-- The schedule memory `W[0..63]`: index and word, indices rising; an index not listed holds no
  value (R24, R43). -/
  W : List (Nat × Word)
  /-- The block buffer `BUF[0..63]`: index and byte, indices rising; an index not listed holds no value
  (R25, R43). -/
  BUF : List Host.Cell
  /-- The command words the host presents, in order; the first is the one on the port (R169). -/
  cmds : List (BitVec 12)
  /-- Who moves at the coming steps; when it is empty the engine moves while it is busy and the host
  otherwise (R170, U9, log entry 3). -/
  turns : List Turn
  /-- The bytes delivered on the response port, oldest first (R50, R81, log entry 4). -/
  resp : List Byte
  /-- How many resets there have been: it selects the bits of storage that nothing has written since the
  last one (R43, U3, log entry 20). -/
  resets : Nat
  deriving DecidableEq, Repr

/-- The state after reset (R42, R201), with nothing presented and nothing delivered. -/
def State.reset : State where
  PHASE := .idle
  TAIL := .none
  N := 0
  T := 0
  LEN := 0
  S := none
  R := none
  W := []
  BUF := []
  cmds := []
  turns := []
  resp := []
  resets := 0

end Sys2Proof.Machine
end

