-- ==== Sys2Proof/Machine/Flags.lean ====
section
/-! DEFINITION. The encoding of `PHASE` (spec 10_state.md rule R30), the four status flags, each a pure
function of `PHASE` with no storage (R37), and the status byte of `STAT` (30_encoding.md rule R80).
The engine has no condition codes: no step tests an arithmetic result (R37). -/

namespace Sys2Proof.Machine

/-- The 4-bit code of a phase (R30). -/
def phaseCode : Phase → BitVec 4
  | .idle => 0
  | .absorb => 1
  | .pad1 => 2
  | .pad2 => 3
  | .loadw => 4
  | .expand => 5
  | .initw => 6
  | .round => 7
  | .accum => 8
  | .done => 9

/-- `idle = (PHASE = IDLE)` (R37). -/
def flagIdle : Phase → Bool
  | .idle => true
  | _ => false

/-- `in_ready = (PHASE = ABSORB)` (R37). -/
def flagInReady : Phase → Bool
  | .absorb => true
  | _ => false

/-- `busy`: `PHASE` is one of the seven micro-operation phases (R37). -/
def flagBusy : Phase → Bool
  | .pad1 => true
  | .pad2 => true
  | .loadw => true
  | .expand => true
  | .initw => true
  | .round => true
  | .accum => true
  | .idle => false
  | .absorb => false
  | .done => false

/-- `dvalid = (PHASE = DONE)` (R37). -/
def flagDvalid : Phase → Bool
  | .done => true
  | _ => false

/-- The response of `STAT`: `PHASE ‖ 0 ‖ dvalid ‖ busy ‖ in_ready` (R80, R168). -/
def statusByte (p : Phase) : Byte :=
  phaseCode p ++ 0#1 ++ BitVec.ofBool (flagDvalid p) ++ BitVec.ofBool (flagBusy p)
    ++ BitVec.ofBool (flagInReady p)

end Sys2Proof.Machine
end

