-- ==== Sys2Proof/Machine/Ops.lean ====
section
/-! DEFINITION. The shared operations: storage arrays in canonical form, acceptance and response at the
command port, the selection of the next step, and the position from which a given step runs.
The engine raises no exception and has no trap entry or return (spec 60_exceptions.md rules R185,
R191), so there is no operation for taking one. -/

namespace Sys2Proof.Machine

/-! ## Storage arrays

A storage array is a list of (index, value) pairs, indices strictly rising; an index that is not
listed holds no value (R43). Equal storage is equal data. -/

/-- Strictly rising indices, the first at least `lo` and the last below `size`. -/
def Memory.wfFrom {w : Nat} (size : Nat) : Nat → List (Nat × BitVec w) → Bool
  | _, [] => true
  | lo, (b, _) :: m => decide (lo ≤ b) && decide (b < size) && Memory.wfFrom size (b + 1) m

/-- The canonical form of an array of `size` elements. -/
def Memory.wf {w : Nat} (size : Nat) (m : List (Nat × BitVec w)) : Bool := Memory.wfFrom size 0 m

/-- `X[a]`, or `none` where the element holds no value (R10, R43). -/
def Memory.read {w : Nat} : List (Nat × BitVec w) → Nat → Option (BitVec w)
  | [], _ => none
  | (b, v) :: m, a => if a = b then some v else Memory.read m a

/-- `X[a] <- v` (R10). -/
def Memory.write {w : Nat} : List (Nat × BitVec w) → Nat → BitVec w → List (Nat × BitVec w)
  | [], a, v => [(a, v)]
  | (b, u) :: m, a, v =>
    if a < b then (a, v) :: (b, u) :: m
    else if a = b then (a, v) :: m
    else (b, u) :: Memory.write m a v

/-- `X[a], X[a+1], ... <- vs` in one step; with `vs = be64 v` it is `MemWrite(X, a, 8, v)` (R10). -/
def Memory.writeList {w : Nat} : List (Nat × BitVec w) → Nat → List (BitVec w) → List (Nat × BitVec w)
  | m, _, [] => m
  | m, a, v :: vs => Memory.writeList (Memory.write m a v) (a + 1) vs

/-- The array whose elements from index `a` on are `vs` and that holds nothing else. -/
def Memory.listFrom {w : Nat} : Nat → List (BitVec w) → List (Nat × BitVec w)
  | _, [] => []
  | a, v :: vs => (a, v) :: Memory.listFrom (a + 1) vs

/-- The array that holds exactly `vs`, from index 0 on. -/
def Memory.ofList {w : Nat} (vs : List (BitVec w)) : List (Nat × BitVec w) := Memory.listFrom 0 vs

/-! ## The ports -/

/-- The presented command is accepted and leaves the port (R169). -/
def State.accept (s : State) : State := { s with cmds := s.cmds.tail }

/-- The presented command is accepted and the engine responds with one byte (R81, R169). -/
def State.respond (s : State) (b : Byte) : State := { s with cmds := s.cmds.tail, resp := s.resp ++ [b] }

/-! ## The next step -/

/-- Who moves now. With no turn listed the engine runs while it is busy and the host moves otherwise
(R170; log entry 3). -/
def State.turnNow (s : State) : Turn :=
  match s.turns with
  | [] => if flagBusy s.PHASE then .engine else .host
  | t :: _ => t

/-- The turn is over. -/
def State.endTurn (s : State) : State := { s with turns := s.turns.tail }

/-- What selects the step of this turn (R87): the reset bit, the `PHASE` register, or the command word
on the port. `none` when the port is empty or the host only withdraws. -/
def State.selected (s : State) : Option Selector :=
  match s.turnNow with
  | .rst r => some (.rst r)
  | .engine => some (.uop (phaseCode s.PHASE))
  | .host => s.cmds.head?.map .cmd
  | .withdraw => none

/-- The turn passes and no step is taken: the host withdraws the presented command (R169), nothing is
presented, `PHASE` selects no micro-operation (R78), or the reset bit is 0 (R79). -/
def State.passTurn (s : State) : State :=
  match s.turnNow with
  | .withdraw => s.endTurn.accept
  | .rst _ => s.endTurn
  | .host => s.endTurn
  | .engine => s.endTurn

/-! ## The position from which a given step runs (log entry 14) -/

/-- `s` at phase `p` and index `t` of the sequencer (R36). -/
def State.positioned (s : State) (p : Phase) (t : BitVec 6) : State := { s with PHASE := p, T := t }

/-- `s` in a position at which the step `i` is enabled (the conditions of R36 and of each step's
rule). -/
def State.enabledFor (s : State) (i : Instr) : State :=
  match i with
  | .start => if flagBusy s.PHASE then s.positioned .idle 0 else s
  | .push _ => s.positioned .absorb 0
  | .finish => s.positioned .absorb 0
  | .read _ => s.positioned .done 0
  | .stat => s
  | .reset => s
  | .pad1 => s.positioned .pad1 0
  | .pad2 => s.positioned .pad2 0
  | .ldw => s.positioned .loadw 0
  | .exp => s.positioned .expand 16
  | .initw => s.positioned .initw 0
  | .round => s.positioned .round 0
  | .acc => s.positioned .accum 0

/-- The turn that lets the step a selector selects be taken next. -/
def turnFor : Selector → Turn
  | .rst r => .rst r
  | .cmd _ => .host
  | .uop _ => .engine

/-- The port once a command word is presented ahead of what is presented already. -/
def State.present (s : State) (sel : Selector) : State :=
  match sel with
  | .cmd c => { s with cmds := c :: s.cmds }
  | .uop _ => s
  | .rst _ => s

/-- `s` ready to take, at its next step, the step that `sel` selects. -/
def State.readyFor (s : State) (sel : Selector) : State :=
  let s' := { s.present sel with turns := turnFor sel :: s.turns }
  match decode sel with
  | .ok i => s'.enabledFor i
  | .error _ => s'

end Sys2Proof.Machine
end

