-- ==== Sys2Proof/Machine/WordFunctions.lean ====
section
/-! DEFINITION. The combinational units (spec 40_word_functions.md rules R90 to R102). Every one is
pure and total; none sets a flag. -/

namespace Sys2Proof.Machine

/-- Addition modulo 2^32, no carry kept (R90). -/
def add32 (x y : Word) : Word := x + y

/-- Logical shift right (R92). DESIGN CHOICE: at a count of 32 or more, where R92 gives none, the result is
0 (log entry 21, safe). -/
def shr (x : Word) (n : Nat) : Word := x >>> n

/-- Shift left, bits past bit 31 lost (R92). DESIGN CHOICE: at a count of 32 or more, where R92 gives none,
the result is 0 (log entry 21, safe). -/
def shl (x : Word) (n : Nat) : Word := x <<< n

/-- Circular right rotation, as the bit permutation "bit `i` of the result is bit `(i + n) mod 32` of
`x`", total in `n` (R93, U2). -/
def rotr (x : Word) (n : Nat) : Word := x.rotateRight n

/-- `Ch`, the "select" helper (R94). -/
def Ch (x y z : Word) : Word := (x &&& y) ^^^ (~~~x &&& z)

/-- `Maj`, the "majority" helper (R95). -/
def Maj (x y z : Word) : Word := (x &&& y) ^^^ (x &&& z) ^^^ (y &&& z)

/-- `Σ0` (R96). -/
def bsig0 (x : Word) : Word := rotr x 2 ^^^ rotr x 13 ^^^ rotr x 22

/-- `Σ1` (R97). -/
def bsig1 (x : Word) : Word := rotr x 6 ^^^ rotr x 11 ^^^ rotr x 25

/-- `σ0`; its third term is a shift (R98). -/
def ssig0 (x : Word) : Word := rotr x 7 ^^^ rotr x 18 ^^^ shr x 3

/-- `σ1`; its third term is a shift (R99). -/
def ssig1 (x : Word) : Word := rotr x 17 ^^^ rotr x 19 ^^^ shr x 10

/-- Four bytes to a word, the first the most significant (R100, R52). -/
def be32 (b0 b1 b2 b3 : Byte) : Word := b0 ++ b1 ++ b2 ++ b3

/-- Byte `k` of a word, byte 0 the most significant: `x[31 − 8k : 24 − 8k]` (R101). -/
def byte32 (x : Word) (k : Nat) : Byte := x.extractLsb' (24 - 8 * k) 8

/-- A word to four bytes, the inverse of `be32` (R101). -/
def bytes32 (x : Word) : List Byte := [byte32 x 0, byte32 x 1, byte32 x 2, byte32 x 3]

/-- A 64-bit value to eight bytes, most significant first (R102, R53). -/
def be64 (v : BitVec 64) : List Byte :=
  [v.extractLsb' 56 8, v.extractLsb' 48 8, v.extractLsb' 40 8, v.extractLsb' 32 8,
   v.extractLsb' 24 8, v.extractLsb' 16 8, v.extractLsb' 8 8, v.extractLsb' 0 8]

end Sys2Proof.Machine
end

