-- ==== Sys2Proof/Machine/Operands.lean ====
section
/-! DEFINITION. The operand forms: reads of storage, which deliver the value an element holds, or free bits
where no step has written it since reset (spec 10_state.md rule R43, 93_implementation_defined.md U3; log
entry 1, safe), the word read of the block buffer (20_memory.md rule R52), the digest view (10_state.md rule
R28) and the eight-register forms. -/

namespace Sys2Proof.Machine

/-- `BUF[a]` (R43). -/
def bufByte (s : State) (a : Nat) : Byte := (Memory.read s.BUF a).getD (Config.unwrittenBUF s.resets a)

/-- `MemRead(BUF, a, 4)`, big-endian (R10, R52). -/
def bufWord (s : State) (a : Nat) : Word :=
  be32 (bufByte s a) (bufByte s (a + 1)) (bufByte s (a + 2)) (bufByte s (a + 3))

/-- `W[j]` (R43). -/
def schedWord (s : State) (j : Nat) : Word := (Memory.read s.W j).getD (Config.unwrittenW s.resets j)

/-- The eight registers whose element `i` is `f i`. -/
def Regs8.ofFn (f : Nat → Word) : Regs8 := ⟨f 0, f 1, f 2, f 3, f 4, f 5, f 6, f 7⟩

/-- All of `S` (R43). -/
def readS (s : State) : Regs8 := s.S.getD (Regs8.ofFn (Config.unwrittenS s.resets))

/-- All of `R` (R43). -/
def readR (s : State) : Regs8 := s.R.getD (Regs8.ofFn (Config.unwrittenR s.resets))

/-- Element `i` of a register file (R22, R23); an index above 7 reads as element 7 and is never used. -/
def Regs8.get (r : Regs8) : Nat → Word
  | 0 => r.a
  | 1 => r.b
  | 2 => r.c
  | 3 => r.d
  | 4 => r.e
  | 5 => r.f
  | 6 => r.g
  | _ => r.h

/-- Element by element `add32` (R141, R144). -/
def Regs8.add (r q : Regs8) : Regs8 :=
  ⟨add32 r.a q.a, add32 r.b q.b, add32 r.c q.c, add32 r.d q.d,
   add32 r.e q.e, add32 r.f q.f, add32 r.g q.g, add32 r.h q.h⟩

/-- The digest view: `DIGEST[i] = S[i div 4][31 − 8*(i mod 4) : 24 − 8*(i mod 4)]` (R28, R54, R167). -/
def digestByte (r : Regs8) (i : Nat) : Byte := byte32 (r.get (i / 4)) (i % 4)

end Sys2Proof.Machine
end

