-- ==== Sys2Proof/Machine/Commands.lean ====
section
/-! DEFINITION. The five host commands (spec 44_engine_and_commands.md rules R164 to R168). A command
that is not enabled is not accepted: nothing changes and it stays on the port (R169). -/

namespace Sys2Proof.Machine

/-- The phases in which `START` is accepted: `IDLE`, `ABSORB`, `DONE` (R164). -/
def startEnabled : Phase → Bool
  | .idle => true
  | .absorb => true
  | .done => true
  | .pad1 => false
  | .pad2 => false
  | .loadw => false
  | .expand => false
  | .initw => false
  | .round => false
  | .accum => false

/-- `START` (R164). -/
def execStart (s : State) : Host.Outcome State Fault Refusal :=
  if startEnabled s.PHASE then
    .next { s.accept with S := some romIV, LEN := 0, N := 0, T := 0, TAIL := .none, PHASE := .absorb }
  else .next s

/-- `PUSH b` (R165). -/
def execPush (b : Byte) (s : State) : Host.Outcome State Fault Refusal :=
  if s.PHASE = .absorb then
    if s.N = 63 then
      .next { s.accept with
        BUF := Memory.write s.BUF s.N.toNat b, LEN := s.LEN + 8, N := 0, T := 0, PHASE := .loadw }
    else
      .next { s.accept with BUF := Memory.write s.BUF s.N.toNat b, LEN := s.LEN + 8, N := s.N + 1 }
  else .next s

/-- `FINISH` (R166): `seq <- (PAD1, 0)`. -/
def execFinish (s : State) : Host.Outcome State Fault Refusal :=
  if s.PHASE = .absorb then .next { s.accept with PHASE := .pad1, T := 0 } else .next s

/-- `READ i` (R167): enabled when `PHASE = DONE` and `0 ≤ i ≤ 31`. -/
def execRead (arg : BitVec 8) (s : State) : Host.Outcome State Fault Refusal :=
  if s.PHASE = .done ∧ arg.toNat ≤ 31 then
    .next (s.respond (digestByte (readS s) arg.toNat))
  else .next s

/-- `STAT` (R168): enabled always. -/
def execStat (s : State) : Host.Outcome State Fault Refusal := .next (s.respond (statusByte s.PHASE))

end Sys2Proof.Machine
end

