-- ==== Sys2Proof/Machine/Compressor.lean ====
section
/-! DEFINITION. The compression mixer (spec 43_compressor.md): the round function R140 and the
micro-operations R142 to R144. -/

namespace Sys2Proof.Machine

/-- `T1 = h + Σ1(e) + Ch(e,f,g) + K[j] + W[j]` (R140). -/
def roundT1 (r : Regs8) (k w : Word) : Word :=
  add32 (add32 (add32 (add32 r.h (bsig1 r.e)) (Ch r.e r.f r.g)) k) w

/-- `T2 = Σ0(a) + Maj(a,b,c)` (R140). -/
def roundT2 (r : Regs8) : Word := add32 (bsig0 r.a) (Maj r.a r.b r.c)

/-- One round; the eight assignments are simultaneous (R140, R59). -/
def roundRegs (r : Regs8) (k w : Word) : Regs8 :=
  ⟨add32 (roundT1 r k w) (roundT2 r), r.a, r.b, r.c, add32 r.d (roundT1 r k w), r.e, r.f, r.g⟩

/-- The sequencer after `ROUND` at `T`: `(ACCUM, 0)` if `T = 63`, else `(ROUND, T + 1)` (R143). -/
def afterRound (s : State) : State :=
  if s.T = 63 then { s with PHASE := .accum, T := 0 } else { s with T := s.T + 1 }

/-- The phase after `ACC`, chosen by `TAIL` (R144). -/
def phaseAfterAcc : Tail → Phase
  | .none => .absorb
  | .more => .pad2
  | .last => .done

/-- `INITW` (R142). -/
def execInitw (s : State) : Host.Outcome State Fault Refusal :=
  if s.PHASE = .initw then .next { s with R := some (readS s), T := 0, PHASE := .round } else .next s

/-- `ROUND` (R143). -/
def execRound (s : State) : Host.Outcome State Fault Refusal :=
  if s.PHASE = .round then
    .next (afterRound { s with
      R := some (roundRegs (readR s) (romK s.T.toNat) (schedWord s s.T.toNat)) })
  else .next s

/-- `ACC` (R144). -/
def execAcc (s : State) : Host.Outcome State Fault Refusal :=
  if s.PHASE = .accum then
    .next { s with S := some ((readS s).add (readR s)), T := 0, PHASE := phaseAfterAcc s.TAIL }
  else .next s

end Sys2Proof.Machine
end

