-- ==== Sys2Proof/Machine/Padder.lean ====
section
/-! DEFINITION. The padder's micro-operations (spec 41_padder.md rules R115, R116). A micro-operation
whose condition is false does not apply, and nothing happens on its account (R13). -/

namespace Sys2Proof.Machine

/-- The bytes `PAD1` writes from `BUF[n]` on: the marker, then zeros and the length field where they fit
(`n ≤ 55`), else zeros only (R115). -/
def pad1Bytes (n : Nat) (len : BitVec 64) : List Byte :=
  if n < Config.lengthAt then
    Config.padMark :: (List.replicate (Config.lengthAt - 1 - n) 0 ++ be64 len)
  else Config.padMark :: List.replicate (Config.blockBytes - 1 - n) 0

/-- The 64 bytes `PAD2` writes (R116). -/
def pad2Bytes (len : BitVec 64) : List Byte := List.replicate Config.lengthAt 0 ++ be64 len

/-- `PAD1` (R115). -/
def execPad1 (s : State) : Host.Outcome State Fault Refusal :=
  if s.PHASE = .pad1 then
    .next { s with
      BUF := Memory.writeList s.BUF s.N.toNat (pad1Bytes s.N.toNat s.LEN)
      TAIL := if s.N.toNat < Config.lengthAt then .last else .more
      N := 0, T := 0, PHASE := .loadw }
  else .next s

/-- `PAD2` (R116). -/
def execPad2 (s : State) : Host.Outcome State Fault Refusal :=
  if s.PHASE = .pad2 then
    .next { s with
      BUF := Memory.writeList s.BUF 0 (pad2Bytes s.LEN), TAIL := .last, T := 0, PHASE := .loadw }
  else .next s

end Sys2Proof.Machine
end

