-- ==== Sys2Proof/Machine/ResetEvent.lean ====
section
/-! DEFINITION. The reset event (spec 70_reset_and_hazards.md rule R200). -/

namespace Sys2Proof.Machine

/-- `RESET` (R200), enabled in every phase. A presented command stays presented (R190 (a)). What the storage
physically holds afterwards is free anew (U3, log entry 20). -/
def execReset (s : State) : Host.Outcome State Fault Refusal :=
  .next { s with
    PHASE := .idle, TAIL := .none, N := 0, T := 0, LEN := 0, S := none, R := none, W := [], BUF := []
    resets := s.resets + 1 }

end Sys2Proof.Machine
end

