-- ==== Sys2Proof/Machine/Scheduler.lean ====
section
/-! DEFINITION. The block scheduler's micro-operations (spec 42_block_scheduler.md rules R127, R128). -/

namespace Sys2Proof.Machine

/-- The recurrence: `σ1(W[j-2]) + W[j-7] + σ0(W[j-15]) + W[j-16]`, given the four words (R126, R128). -/
def expandWord (w2 w7 w15 w16 : Word) : Word := add32 (add32 (add32 (ssig1 w2) w7) (ssig0 w15)) w16

/-- The four source words of `W[j]`, read from the schedule memory, and their recurrence (R128). -/
def nextSchedWord (s : State) (j : Nat) : Word :=
  expandWord (schedWord s (j - 2)) (schedWord s (j - 7)) (schedWord s (j - 15)) (schedWord s (j - 16))

/-- The sequencer after `LDW` at `T`: `(EXPAND, 16)` if `T = 15`, else `(LOADW, T + 1)` (R127). -/
def afterLdw (s : State) : State :=
  if s.T = 15 then { s with PHASE := .expand, T := 16 } else { s with T := s.T + 1 }

/-- The sequencer after `EXP` at `T`: `(INITW, 0)` if `T = 63`, else `(EXPAND, T + 1)` (R128). -/
def afterExp (s : State) : State :=
  if s.T = 63 then { s with PHASE := .initw, T := 0 } else { s with T := s.T + 1 }

/-- `LDW` (R127), at `(LOADW, T)` with `T` in `0..15` (R36); elsewhere in `LOADW` the control state is
outside the spec. -/
def execLdw (s : State) : Host.Outcome State Fault Refusal :=
  if s.PHASE = .loadw then
    if s.T.toNat < Config.parsedWords then
      .next (afterLdw { s with W := Memory.write s.W s.T.toNat (bufWord s (4 * s.T.toNat)) })
    else .fault .badControl
  else .next s

/-- `EXP` (R128), at `(EXPAND, T)` with `T` in `16..63` (R36); elsewhere in `EXPAND` the control state
is outside the spec. -/
def execExp (s : State) : Host.Outcome State Fault Refusal :=
  if s.PHASE = .expand then
    if Config.parsedWords ≤ s.T.toNat then
      .next (afterExp { s with W := Memory.write s.W s.T.toNat (nextSchedWord s s.T.toNat) })
    else .fault .badControl
  else .next s

end Sys2Proof.Machine
end

