-- ==== Sys2Proof/Machine/Dispatch.lean ====
section
/-! DEFINITION. The meaning of each step: one arm per constructor of `Instr`. -/

namespace Sys2Proof.Machine

/-- What the machine does at the step `i`. -/
def exec (i : Instr) (s : State) : Host.Outcome State Fault Refusal :=
  match i with
  | .start => Sys2Proof.Machine.execStart s
  | .push b => Sys2Proof.Machine.execPush b s
  | .finish => Sys2Proof.Machine.execFinish s
  | .read arg => Sys2Proof.Machine.execRead arg s
  | .stat => Sys2Proof.Machine.execStat s
  | .reset => Sys2Proof.Machine.execReset s
  | .pad1 => Sys2Proof.Machine.execPad1 s
  | .pad2 => Sys2Proof.Machine.execPad2 s
  | .ldw => Sys2Proof.Machine.execLdw s
  | .exp => Sys2Proof.Machine.execExp s
  | .initw => Sys2Proof.Machine.execInitw s
  | .round => Sys2Proof.Machine.execRound s
  | .acc => Sys2Proof.Machine.execAcc s

end Sys2Proof.Machine
end

