-- ==== Sys2Proof/Machine/Step.lean ====
section
/-! DEFINITION. One step of the machine (spec 30_encoding.md rule R87, 60_exceptions.md rule R190) and
the state from which a word of the opcode table is the next step. -/

namespace Sys2Proof.Machine

/-- One step: the agent whose turn it is moves. The reset bit 1 always resets (R190 (a)) and 0 is no
event (R79); the engine
takes the micro-operation `PHASE` selects, if there is one (R78); the host offers the word on its port,
which `exec` accepts or leaves (R169). A reserved word on the host's turn is refused (R82). -/
def step (s : State) : Host.Outcome State Fault Refusal :=
  match s.selected with
  | none => .next s.passTurn
  | some sel =>
    match decode sel with
    | .ok i => exec i s.endTurn
    | .error .noEngineStep => .next s.passTurn
    | .error .noEvent => .next s.passTurn
    | .error .reservedPhase => .fault .badControl
    | .error .reservedCommand => .refused .reservedCommand

/-- `s` with the step of an opcode-table word next: the word is put where the machine takes it from and
the sequencer where that step is enabled (log entry 14). -/
def State.withFetchWord (s : State) (nbits w : Nat) : State :=
  match selectorOf nbits w with
  | some sel => s.readyFor sel
  | none => s

end Sys2Proof.Machine
end

