-- ==== Sys2Proof/Machine/Checked.lean ====
section
/-! DEFINITION. The step with the outcomes rule R43 gives a model (spec 10_state.md R43, 60_exceptions.md R186,
R187, 92_eei_decisions.md D18, 93_implementation_defined.md U3): it is `step`, but a read of storage that holds
no value ends in `fault NoValue(X, i)`. `step` itself goes on there with free bits, as the hardware does (log
entry 1); no run from reset tells the two apart (R44). -/

namespace Sys2Proof.Machine

/-- The storage arrays that can hold no value (R43). -/
inductive Space where
  | S
  | R
  | W
  | BUF
  deriving DecidableEq, Repr

/-- The closed list of faults of rule R187 (c). Neither is a hardware event. -/
inductive CheckedFault where
  /-- `NoValue(X, i)`: a read of an element that no step has written since the last `RESET` (R43). Raised by
  `checkedExec` for `READ`, `LDW`, `EXP`, `INITW`, `ROUND` and `ACC`. Safe: `exec` goes on with free bits. -/
  | noValue (x : Space) (i : Nat)
  /-- `BadControl` (R186), as `Fault.badControl`. Raised for `LDW` and `EXP`. Safe. -/
  | badControl
  deriving DecidableEq, Repr

/-- The elements of storage that an instruction reads in a state (R50, R58 and each step's rule). The ROMs are
always there, and `PAD1` keeps `BUF[0..N−1]` without reading it (R115). -/
def elementsRead (i : Instr) (s : State) : List (Space × Nat) :=
  match i with
  | .read arg => if s.PHASE = .done ∧ arg.toNat ≤ 31 then [(.S, arg.toNat / 4)] else []
  | .ldw =>
    if s.PHASE = .loadw ∧ s.T.toNat < Config.parsedWords then
      (List.range 4).map fun k => (.BUF, 4 * s.T.toNat + k)
    else []
  | .exp =>
    if s.PHASE = .expand ∧ Config.parsedWords ≤ s.T.toNat then
      [2, 7, 15, 16].map fun d => (.W, s.T.toNat - d)
    else []
  | .initw => if s.PHASE = .initw then (List.range 8).map fun k => (.S, k) else []
  | .round => if s.PHASE = .round then ((List.range 8).map fun k => (.R, k)) ++ [(.W, s.T.toNat)] else []
  | .acc =>
    if s.PHASE = .accum then
      ((List.range 8).map fun k => (.S, k)) ++ (List.range 8).map fun k => (.R, k)
    else []
  | .start => []
  | .push _ => []
  | .finish => []
  | .stat => []
  | .reset => []
  | .pad1 => []
  | .pad2 => []

/-- The element holds a value: some step has written it since the last reset (R43). -/
def State.holds (s : State) (e : Space × Nat) : Bool :=
  match e.1 with
  | .S => s.S.isSome
  | .R => s.R.isSome
  | .W => (Memory.read s.W e.2).isSome
  | .BUF => (Memory.read s.BUF e.2).isSome

/-- The pairs `(X, i)` of `NoValue(X, i)` (R43): the elements the instruction reads that hold no value. -/
def noValueReads (i : Instr) (s : State) : List (Space × Nat) :=
  (elementsRead i s).filter fun e => !s.holds e

/-- An outcome of `exec` or `step`, with its fault as R187 (c) lists it. -/
def liftFault : Host.Outcome State Fault Refusal → Host.Outcome State CheckedFault Refusal
  | .next s => .next s
  | .fault .badControl => .fault .badControl
  | .refused r => .refused r

/-- "A step that would read such an element has outcome `fault NoValue(X, i)` in the model" (R43); otherwise the
outcome of `exec`. DESIGN CHOICE: of several such elements the fault names the first in the order of
`elementsRead` (log entry 22, safe). -/
def checkedExec (i : Instr) (s : State) : Host.Outcome State CheckedFault Refusal :=
  match noValueReads i s with
  | e :: _ => .fault (.noValue e.1 e.2)
  | [] => liftFault (exec i s)

/-- One step with the outcomes of R187: `step`, but for the fault `NoValue` of R43. -/
def checkedStep (s : State) : Host.Outcome State CheckedFault Refusal :=
  match s.selected with
  | none => liftFault (step s)
  | some sel =>
    match decode sel with
    | .ok i => checkedExec i s.endTurn
    | .error _ => liftFault (step s)

end Sys2Proof.Machine
end

