-- ==== Sys2Proof/Machine/Digest.lean ====
section
/-! DEFINITION. The document's functions: `pad` (spec 41_padder.md R110 to R113), `parse` and `sched`
(42_block_scheduler.md R125, R126), `compress` and `block` (43_compressor.md R141), `digest` and `ser`
(44_engine_and_commands.md R160, R161). No step calls them; rule R172 holds the machine to them. -/

namespace Sys2Proof.Machine

/-- `k = (55 − L) mod 64`, the number of zero bytes of the padding (R71, R111); 119 = 55 + 64 keeps the
subtraction exact. -/
def zeroCount (L : Nat) : Nat := (119 - L % 64) % 64

/-- `nb(L)`, the number of blocks of the padded message (R111). -/
def blockCount (L : Nat) : Nat := (L + 8) / 64 + 1

/-- `pad(M) = M ++ [0x80] ++ zeros(k) ++ be64(8*L)`, for `L < 2^61` (R110, R114). DESIGN CHOICE: for a longer
`M`, which R114 gives no padding, the length field is `8*L` modulo 2^64 (log entry 7). -/
def pad (M : List Byte) : List Byte :=
  M ++ Config.padMark ::
    (List.replicate (zeroCount M.length) 0 ++ be64 (BitVec.ofNat 64 (8 * M.length)))

/-- `B_i = P[64i .. 64i + 63]` (R56, R113). -/
def blockAt (P : List Byte) (i : Nat) : List Byte := (P.drop (64 * i)).take 64

/-- The blocks of `pad(M)`, in order (R113); for `L ≥ 2^61` as `pad` chooses (log entry 7). -/
def blocksOf (M : List Byte) : List (List Byte) :=
  (List.range (blockCount M.length)).map (blockAt (pad M))

/-- `parse(B)`: sixteen big-endian words (R125). -/
def parse (B : List Byte) : List Word :=
  (List.range Config.parsedWords).map fun t =>
    be32 (B.getD (4 * t) 0) (B.getD (4 * t + 1) 0) (B.getD (4 * t + 2) 0) (B.getD (4 * t + 3) 0)

/-- The next `k` words of a schedule, by the recurrence of R126. -/
def extendSched : Nat → List Word → List Word
  | 0, ws => ws
  | k + 1, ws =>
    extendSched k (ws ++ [expandWord (ws.getD (ws.length - 2) 0) (ws.getD (ws.length - 7) 0)
      (ws.getD (ws.length - 15) 0) (ws.getD (ws.length - 16) 0)])

/-- `sched(B)`: sixty-four words (R126). -/
def sched (B : List Byte) : List Word :=
  extendSched (Config.scheduleWords - Config.parsedWords) (parse B)

/-- `r_n`: the working registers after rounds `0 .. n − 1` (R141, R145). -/
def afterRounds (r : Regs8) (Wd : List Word) : Nat → Regs8
  | 0 => r
  | n + 1 => roundRegs (afterRounds r Wd n) (romK n) (Wd.getD n 0)

/-- `compress(s, Wd)` (R141). -/
def compress (s : Regs8) (Wd : List Word) : Regs8 := s.add (afterRounds s Wd Config.rounds)

/-- The block function `block(s, B) = compress(s, sched(B))` (R141). -/
def blockFn (s : Regs8) (B : List Byte) : Regs8 := compress s (sched B)

/-- `ser(s)`: eight words to 32 bytes, word 0 first (R161). -/
def ser (s : Regs8) : List Byte :=
  bytes32 s.a ++ bytes32 s.b ++ bytes32 s.c ++ bytes32 s.d
    ++ bytes32 s.e ++ bytes32 s.f ++ bytes32 s.g ++ bytes32 s.h

/-- `digest(M) = ser(s_nb)` with `s_0 = IV` and `s_{i+1} = block(s_i, B_i)` (R160). DESIGN
CHOICE: for `L ≥ 2^61`, where R160 and R114 give none, the value that `pad` leads to, which no statement calls
the digest (log entry 7). -/
def digest (M : List Byte) : List Byte := ser ((blocksOf M).foldl blockFn romIV)

end Sys2Proof.Machine
end

