-- ==== Sys2Proof/Safety.lean ====
section
/-! DEFINITION. What counts as a safe state and run: the invariant of spec 10_state.md rule R38 with the
clause its induction needs, the states a run reaches, the host's transaction (30_encoding.md R85,
R86; 00_scope.md R14), the blocks a run hands to the scheduler (41_padder.md R117) and who takes a run's steps
(44_engine_and_commands.md R173). -/

namespace Sys2Proof.Machine

/-- Every element from 0 to `n − 1` holds a value. -/
def Memory.holdsBelow {w : Nat} (n : Nat) (m : List (Nat × BitVec w)) : Prop :=
  ∀ a, a < n → (Memory.read m a).isSome = true

/-- `T` for each phase (R38 (b)). -/
def indexFits (p : Phase) (t : BitVec 6) : Prop :=
  match p with
  | .loadw => t.toNat ≤ 15
  | .expand => 16 ≤ t.toNat
  | .round => True
  | _ => t = 0

/-- `TAIL` for each phase (R38 (c)). -/
def tailFits (p : Phase) (k : Tail) : Prop :=
  match p with
  | .idle => k = .none
  | .absorb => k = .none
  | .pad1 => k = .none
  | .pad2 => k = .more
  | .done => k = .last
  | _ => True

/-- `N` for each phase (R38 (d)). -/
def fillFits (p : Phase) (n : BitVec 6) (len : BitVec 64) : Prop :=
  match p with
  | .absorb => n.toNat = len.toNat / 8 % 64
  | .pad1 => n.toNat = len.toNat / 8 % 64
  | _ => n = 0

/-- A full block of message bytes in progress leaves `LEN` on a block boundary. R38 (d) needs this clause
for its induction, since `ACC` with `TAIL = NONE` returns to `ABSORB` with `N = 0` (log entry 16). -/
def fullBlockFits (p : Phase) (k : Tail) (len : BitVec 64) : Prop :=
  flagBusy p = true → p ≠ .pad1 → k = .none → len.toNat / 8 % 64 = 0

/-- Which storage holds values in each phase (R38 (g), (h)). -/
def storageFits (s : State) : Prop :=
  match s.PHASE with
  | .absorb => Memory.holdsBelow s.N.toNat s.BUF
  | .pad1 => Memory.holdsBelow s.N.toNat s.BUF
  | .loadw => Memory.holdsBelow 64 s.BUF ∧ Memory.holdsBelow s.T.toNat s.W
  | .expand => Memory.holdsBelow s.T.toNat s.W
  | .initw => Memory.holdsBelow 64 s.W
  | .round => Memory.holdsBelow 64 s.W ∧ s.R.isSome = true
  | .accum => Memory.holdsBelow 64 s.W ∧ s.R.isSome = true
  | _ => True

/-- The well-formedness of a state: rule R38 (a) to (h) ((a) holds by the types of `PHASE` and `TAIL`),
the canonical form of the two storage arrays, and `fullBlockFits`. -/
structure State.Inv (s : State) : Prop where
  bufCanonical : Memory.wf 64 s.BUF = true
  wCanonical : Memory.wf 64 s.W = true
  index : indexFits s.PHASE s.T
  tail : tailFits s.PHASE s.TAIL
  fill : fillFits s.PHASE s.N s.LEN
  wholeBytes : s.LEN.toNat % 8 = 0
  fullBlock : fullBlockFits s.PHASE s.TAIL s.LEN
  running : s.PHASE ≠ .idle → s.S.isSome = true
  storage : storageFits s

/-- The states that runs from reset reach, whatever the host presents and whoever moves when (R38, R40). -/
inductive Reachable : State → Prop where
  | reset (cmds : List (BitVec 12)) (turns : List Turn) (resp : List Byte) :
      Reachable { State.reset with cmds := cmds, turns := turns, resp := resp }
  | step {s t : State} : Reachable s → Sys2Proof.Machine.step s = .next t → Reachable t

/-- The same engine state, field by field of R21 and with the same free bits, whatever stands at the
ports. -/
def State.SameEngine (s t : State) : Prop :=
  t.PHASE = s.PHASE ∧ t.TAIL = s.TAIL ∧ t.N = s.N ∧ t.T = s.T ∧ t.LEN = s.LEN ∧
    t.S = s.S ∧ t.R = s.R ∧ t.W = s.W ∧ t.BUF = s.BUF ∧ t.resets = s.resets

/-- The word `PUSH b` (R85). -/
def pushWord (b : Byte) : BitVec 12 := 0x200#12 + b.setWidth 12

/-- The word `READ i` (R85). -/
def readWord (i : Nat) : BitVec 12 := 0x400#12 + BitVec.ofNat 12 i

/-- `START`, `PUSH M[0]`, ..., `PUSH M[L−1]`, `FINISH` (R14, R85). -/
def transaction (M : List Byte) : List (BitVec 12) := 0x100#12 :: (M.map pushWord ++ [0x300#12])

/-- `READALL` (R86). -/
def readAll : List (BitVec 12) := (List.range 32).map readWord

/-- A `STAT` word (R75). -/
def isStat (c : BitVec 12) : Bool := c &&& 0xF00#12 == 0x500#12

/-- The listed turns hold no reset event and no withdrawal: the premise of R172 on a transaction. A reset bit
of 0 is no event (R79). -/
def State.undisturbed (s : State) : Prop := ∀ t ∈ s.turns, t = .host ∨ t = .engine ∨ t = .rst 0

/-- The bytes an array holds, in index order. -/
def Memory.contents {w : Nat} (m : List (Nat × BitVec w)) : List (BitVec w) := m.map Prod.snd

/-- Who moves at each of the next `k` steps (R173). -/
def movers : Nat → State → List Turn
  | 0, _ => []
  | k + 1, s =>
    s.turnNow ::
      match step s with
      | .next t => movers k t
      | .fault _ => []
      | .refused _ => []

/-- The successive contents of `BUF` at the moments a run of `k` steps enters `LOADW` (R117). -/
def blocksLoaded : Nat → State → List (List Byte)
  | 0, _ => []
  | k + 1, s =>
    match step s with
    | .next t =>
      if s.PHASE ≠ .loadw ∧ t.PHASE = .loadw then Memory.contents t.BUF :: blocksLoaded k t
      else blocksLoaded k t
    | .fault _ => []
    | .refused _ => []

end Sys2Proof.Machine
end

