-- ==== Sys2Proof/Certificates/Slice0/Obligations.lean ====
section
/-! DEFINITION. The statements for the provers. Each docstring names the rules of the spec it states or
rests on. -/

namespace Sys2Proof.Machine

/-- The micro-operations (R78). -/
def isMicroOperation (i : Instr) : Bool :=
  match i with
  | .pad1 => true
  | .pad2 => true
  | .ldw => true
  | .exp => true
  | .initw => true
  | .round => true
  | .acc => true
  | .start => false
  | .push _ => false
  | .finish => false
  | .read _ => false
  | .stat => false
  | .reset => false

/-- The phase in which a micro-operation is enabled (R78); no phase for the other steps. -/
def microPhase (i : Instr) : Option Phase :=
  match i with
  | .pad1 => some .pad1
  | .pad2 => some .pad2
  | .ldw => some .loadw
  | .exp => some .expand
  | .initw => some .initw
  | .round => some .round
  | .acc => some .accum
  | .start => none
  | .push _ => none
  | .finish => none
  | .read _ => none
  | .stat => none
  | .reset => none

/-- One edge of the sequencer's table (R36, R171), from the position of `s` to the position of `t`, other
than staying where it is. -/
def seqEdge (s t : State) : Prop :=
  (startEnabled s.PHASE = true ∧ t.PHASE = .absorb ∧ t.T = 0) ∨
  (s.PHASE = .absorb ∧ s.N = 63 ∧ t.PHASE = .loadw ∧ t.T = 0) ∨
  (s.PHASE = .absorb ∧ t.PHASE = .pad1 ∧ t.T = 0) ∨
  (s.PHASE = .pad1 ∧ t.PHASE = .loadw ∧ t.T = 0) ∨
  (s.PHASE = .pad2 ∧ t.PHASE = .loadw ∧ t.T = 0) ∨
  (s.PHASE = .loadw ∧ s.T.toNat < 15 ∧ t.PHASE = .loadw ∧ t.T.toNat = s.T.toNat + 1) ∨
  (s.PHASE = .loadw ∧ s.T = 15 ∧ t.PHASE = .expand ∧ t.T = 16) ∨
  (s.PHASE = .expand ∧ 16 ≤ s.T.toNat ∧ s.T.toNat < 63 ∧ t.PHASE = .expand ∧ t.T.toNat = s.T.toNat + 1) ∨
  (s.PHASE = .expand ∧ s.T = 63 ∧ t.PHASE = .initw ∧ t.T = 0) ∨
  (s.PHASE = .initw ∧ t.PHASE = .round ∧ t.T = 0) ∨
  (s.PHASE = .round ∧ s.T.toNat < 63 ∧ t.PHASE = .round ∧ t.T.toNat = s.T.toNat + 1) ∨
  (s.PHASE = .round ∧ s.T = 63 ∧ t.PHASE = .accum ∧ t.T = 0) ∨
  (s.PHASE = .accum ∧ s.TAIL = .none ∧ t.PHASE = .absorb ∧ t.T = 0) ∨
  (s.PHASE = .accum ∧ s.TAIL = .more ∧ t.PHASE = .pad2 ∧ t.T = 0) ∨
  (s.PHASE = .accum ∧ s.TAIL = .last ∧ t.PHASE = .done ∧ t.T = 0)

/-- Two command words that differ at most in the byte a `PUSH` carries. -/
def sameButByte (c c' : BitVec 12) : Prop :=
  c = c' ∨ (c &&& 0xF00#12 = 0x200#12 ∧ c' &&& 0xF00#12 = 0x200#12)

/-- Two states with the same control registers and turns, presenting the same commands up to message
bytes (R171, R210). Storage and responses may differ. -/
def sameControl (s t : State) : Prop :=
  t.PHASE = s.PHASE ∧ t.TAIL = s.TAIL ∧ t.N = s.N ∧ t.T = s.T ∧ t.LEN = s.LEN ∧ t.turns = s.turns ∧
    List.Forall₂ sameButByte s.cmds t.cmds

/-- No listed command word is reserved (R82). -/
def noReserved (cmds : List (BitVec 12)) : Prop := ∀ c ∈ cmds, decode (.cmd c) ≠ .error .reservedCommand

/-- The first 64 primes, 2 to 311 (R26). -/
def primesTo311 : List Nat := (List.range 312).filter fun n => decide (Nat.Prime n)

end Sys2Proof.Machine

open Sys2Proof Sys2Proof.Machine

/-! ## Encoding -/

/-- Decoding an encoded well-formed instruction gives it back, with every operand at every value the
encoding admits (30_encoding.md rules R75, R76, R78, R79). -/
def Obligations.DecodeOfEncodeIsTheInstruction : Prop :=
  ∀ i : Instr, i.wellFormed = true → decode (encode i) = .ok i

/-- Rule R75, the opcode map by its fields `op = [11:8]` and `arg = [7:0]`, and rule R85, the command word
of each script line, which is the canonical spelling where `arg` is ignored. -/
def Obligations.CommandWordsDecodeByTheOpcodeMap : Prop :=
  (∀ (op : BitVec 4) (arg : BitVec 8),
    decode (.cmd (op ++ arg)) =
      if op = 1 then .ok .start
      else if op = 2 then .ok (.push arg)
      else if op = 3 then .ok .finish
      else if op = 4 ∧ arg.toNat < 32 then .ok (.read arg)
      else if op = 5 then .ok .stat
      else .error .reservedCommand) ∧
  encode .start = .cmd 0x100 ∧ (∀ b : Byte, encode (.push b) = .cmd (0x200#12 + b.setWidth 12)) ∧
  encode .finish = .cmd 0x300 ∧
  (∀ n, n < 32 → encode (.read (BitVec.ofNat 8 n)) = .cmd (0x400#12 + BitVec.ofNat 12 n)) ∧
  encode .stat = .cmd 0x500 ∧ encode .reset = .rst 1

/-- Words written out from the spec's encodings (R75, R78, R79, and the vectors V14 to V20 of
95_test_vectors.md section 9). -/
def Obligations.WrittenOutWordsDecode : Prop :=
  decode (.cmd 0b000111111111#12) = .ok .start ∧
  decode (.cmd 0b001010101011#12) = .ok (.push 0xab) ∧
  decode (.cmd 0b001110100101#12) = .ok .finish ∧
  decode (.cmd 0b010000011111#12) = .ok (.read 31) ∧
  decode (.cmd 0b010111111111#12) = .ok .stat ∧
  decode (.cmd 0b010000100000#12) = .error .reservedCommand ∧
  decode (.cmd 0b011000000000#12) = .error .reservedCommand ∧
  decode (.rst 0b1#1) = .ok .reset ∧
  decode (.uop 0b0010#4) = .ok .pad1 ∧
  decode (.uop 0b0101#4) = .ok .exp ∧
  decode (.uop 0b1000#4) = .ok .acc

/-- Rule R82: which words are reserved; on the host's turn the model refuses one (log entry 6), and
whoever moves it stays on the port with no response, unless the host withdraws it. -/
def Obligations.ReservedWordsAreNeverAccepted : Prop :=
  (∀ (op : BitVec 4) (arg : BitVec 8),
    decode (.cmd (op ++ arg)) = .error .reservedCommand ↔
      (op = 0 ∨ 6 ≤ op.toNat ∨ (op = 4 ∧ arg.extractLsb' 5 3 ≠ 0))) ∧
  (∀ (s : State) (c : BitVec 12) (rest : List (BitVec 12)),
    s.cmds = c :: rest → decode (.cmd c) = .error .reservedCommand →
      (s.turnNow = .host → step s = .refused .reservedCommand) ∧
      (∀ t, step s = .next t → s.turnNow ≠ .withdraw → t.cmds = s.cmds ∧ t.resp = s.resp))

/-- A step runs the decoded instruction (R87): the agent whose turn it is moves (the turns are the model's,
log entry 3), the turn is used up, and what it selects decodes to the instruction that `exec` runs. A turn
on which the host withdraws takes the word from the port (R169, log entry 17), and a host's turn with
nothing presented (log entry 3) or the reset bit 0, which is no event (R79), passes; these leave everything
else. -/
def Obligations.StepRunsTheDecodedInstruction : Prop :=
  ∀ (s : State) (i : Instr),
    (∀ r, s.turnNow = .rst r → decode (.rst r) = .ok i → step s = exec i s.endTurn) ∧
    (s.turnNow = .engine → decode (.uop (phaseCode s.PHASE)) = .ok i → step s = exec i s.endTurn) ∧
    (∀ c rest, s.turnNow = .host → s.cmds = c :: rest → decode (.cmd c) = .ok i →
      step s = exec i s.endTurn) ∧
    (s.turnNow = .withdraw → step s = .next { s.endTurn with cmds := s.cmds.drop 1 }) ∧
    (s.turnNow = .host → s.cmds = [] → step s = .next s.endTurn) ∧
    (s.turnNow = .rst 0 → step s = .next s.endTurn) ∧
    s.endTurn = { s with turns := s.turns.drop 1 } ∧
    (∀ a as, s.turns = a :: as → s.turnNow = a) ∧
    (s.turns = [] → s.turnNow = if flagBusy s.PHASE = true then .engine else .host)

/-- Rule R78: on its turn the engine takes the micro-operation `PHASE` alone selects, and none in `IDLE`,
`ABSORB` and `DONE`; the codes 10 to 15 are reserved. The turn is the model's (log entry 3). -/
def Obligations.PhaseSelectsTheMicroOperation : Prop :=
  (∀ s : State, s.turnNow = .engine →
    step s = match s.PHASE with
      | .pad1 => exec .pad1 s.endTurn
      | .pad2 => exec .pad2 s.endTurn
      | .loadw => exec .ldw s.endTurn
      | .expand => exec .exp s.endTurn
      | .initw => exec .initw s.endTurn
      | .round => exec .round s.endTurn
      | .accum => exec .acc s.endTurn
      | .idle => .next s.endTurn
      | .absorb => .next s.endTurn
      | .done => .next s.endTurn) ∧
  decode (.uop 2) = .ok .pad1 ∧ decode (.uop 3) = .ok .pad2 ∧ decode (.uop 4) = .ok .ldw ∧
  decode (.uop 5) = .ok .exp ∧ decode (.uop 6) = .ok .initw ∧ decode (.uop 7) = .ok .round ∧
  decode (.uop 8) = .ok .acc ∧ decode (.uop 0) = .error .noEngineStep ∧
  decode (.uop 1) = .error .noEngineStep ∧ decode (.uop 9) = .error .noEngineStep ∧
  (∀ p : BitVec 4, 10 ≤ p.toNat → decode (.uop p) = .error .reservedPhase)

/-! ## Reset -/

/-- Rule R42, the state after reset. -/
def Obligations.ResetStateIsTheTableOfR42 : Prop :=
  State.reset.PHASE = .idle ∧ State.reset.TAIL = .none ∧ State.reset.N = 0 ∧ State.reset.T = 0 ∧
  State.reset.LEN = 0 ∧ State.reset.S = none ∧ State.reset.R = none ∧
  (∀ a, Memory.read State.reset.W a = none) ∧ (∀ a, Memory.read State.reset.BUF a = none) ∧
  flagIdle State.reset.PHASE = true ∧ flagInReady State.reset.PHASE = false ∧
  flagBusy State.reset.PHASE = false ∧ flagDvalid State.reset.PHASE = false

/-- Rule R200: `RESET` is enabled in every state, clears the control registers, leaves no storage element
with a value (which free bits it delivers is open anew, log entry 20) and, by log entry 13, touches nothing
at the ports. -/
def Obligations.ResetStepClearsTheEngine : Prop :=
  ∀ s : State, ∃ t, exec .reset s = .next t ∧
    t.PHASE = .idle ∧ t.TAIL = .none ∧ t.N = 0 ∧ t.T = 0 ∧ t.LEN = 0 ∧ t.S = none ∧ t.R = none ∧
    (∀ a, Memory.read t.W a = none) ∧ (∀ a, Memory.read t.BUF a = none) ∧
    t.resets = s.resets + 1 ∧ t.cmds = s.cmds ∧ t.turns = s.turns ∧ t.resp = s.resp

/-- Rules R190 (a) and R79: when the reset event occurs (the bit is 1), the reset step is taken whatever else is
enabled, and a presented command stays presented; the bit 0 is no event, and neither the engine nor a port
changes. That the bit is shown on a listed turn is the model's choice (log entries 3, 13 and 14). -/
def Obligations.ResetWinsOverEverything : Prop :=
  (∀ s : State, s.turnNow = .rst 1 → ∃ t, step s = .next t ∧ exec .reset s.endTurn = .next t ∧
    t.PHASE = .idle ∧ t.TAIL = .none ∧ t.N = 0 ∧ t.T = 0 ∧ t.LEN = 0 ∧ t.S = none ∧ t.R = none ∧
    t.W = [] ∧ t.BUF = [] ∧ t.resets = s.resets + 1 ∧ t.cmds = s.cmds ∧ t.resp = s.resp) ∧
  decode (.rst 0) = .error .noEvent ∧
  (∀ s : State, s.turnNow = .rst 0 → ∃ t, step s = .next t ∧ s.SameEngine t ∧ t.cmds = s.cmds ∧
    t.resp = s.resp ∧ t.turns = s.turns.drop 1) ∧
  (∀ s : State, step (s.withFetchWord 1 1) = exec .reset s ∧ step (s.withFetchWord 1 0) = .next s)

/-- Rules R26 and R27: `K[i]` is the first 32 bits of the fractional part of the cube root of the `i`-th
prime, and `IV[i]` of the square root (`i` from 0); the values come from outside the source (log entry 9). -/
def Obligations.RomsHoldTheFractionsOfPrimeRoots : Prop :=
  primesTo311.length = 64 ∧
  (∀ i, i < 64 → ∃ q : Nat,
    (q * 2 ^ 32 + (romK i).toNat) ^ 3 ≤ primesTo311.getD i 0 * 2 ^ 96 ∧
    primesTo311.getD i 0 * 2 ^ 96 < (q * 2 ^ 32 + (romK i).toNat + 1) ^ 3) ∧
  (∀ i, i < 8 → ∃ q : Nat,
    (q * 2 ^ 32 + (romIV.get i).toNat) ^ 2 ≤ primesTo311.getD i 0 * 2 ^ 64 ∧
    primesTo311.getD i 0 * 2 ^ 64 < (q * 2 ^ 32 + (romIV.get i).toNat + 1) ^ 2)

/-! ## Host commands -/

/-- Rule R164: `START` in `IDLE`, `ABSORB` or `DONE` completes; everything it does not name is
unchanged. -/
def Obligations.StartOpensAMessage : Prop :=
  ∀ s : State, s.PHASE = .idle ∨ s.PHASE = .absorb ∨ s.PHASE = .done →
    exec .start s = .next { s with
      S := some romIV, LEN := 0, N := 0, T := 0, TAIL := .none, PHASE := .absorb, cmds := s.cmds.tail }

/-- Rule R165: `PUSH b` in `ABSORB` completes: the byte goes to `BUF[N]`, `LEN` moves by 8 modulo 2^64,
and the 64th byte of a block starts the engine. -/
def Obligations.PushAppendsAByte : Prop :=
  ∀ (s : State) (b : Byte), s.PHASE = .absorb →
    exec (.push b) s = .next { s with
      BUF := Memory.write s.BUF s.N.toNat b
      LEN := BitVec.ofNat 64 ((s.LEN.toNat + 8) % 2 ^ 64)
      N := if s.N.toNat = 63 then 0 else BitVec.ofNat 6 (s.N.toNat + 1)
      T := if s.N.toNat = 63 then 0 else s.T
      PHASE := if s.N.toNat = 63 then .loadw else .absorb
      cmds := s.cmds.tail }

/-- Rule R166: `FINISH` in `ABSORB` completes and hands over to the padder. -/
def Obligations.FinishHandsOverToThePadder : Prop :=
  ∀ s : State, s.PHASE = .absorb →
    exec .finish s = .next { s with PHASE := .pad1, T := 0, cmds := s.cmds.tail }

/-- Rule R167: `READ i` in `DONE` completes and returns `(S[i div 4] >> (8 * (3 - i mod 4))) mod 256`;
no state of the engine changes. -/
def Obligations.ReadReturnsADigestByte : Prop :=
  ∀ (s : State) (i : BitVec 8) (r : Regs8), s.PHASE = .done → i.toNat ≤ 31 → s.S = some r →
    exec (.read i) s = .next { s with
      resp := s.resp ++
        [BitVec.ofNat 8 ((r.get (i.toNat / 4)).toNat / 2 ^ (8 * (3 - i.toNat % 4)) % 256)]
      cmds := s.cmds.tail }

/-- Rules R80 and R168: `STAT` completes in every state and returns the ten values of R80; no state of
the engine changes. -/
def Obligations.StatReturnsTheStatusByte : Prop :=
  ∀ s : State, exec .stat s = .next { s with
    resp := s.resp ++ [match s.PHASE with
      | .idle => 0x00 | .absorb => 0x11 | .pad1 => 0x22 | .pad2 => 0x32 | .loadw => 0x42
      | .expand => 0x52 | .initw => 0x62 | .round => 0x72 | .accum => 0x82 | .done => 0x94]
    cmds := s.cmds.tail }

/-- Rule R169: a command whose condition is false is not accepted: nothing changes and it stays on the
port, which the model answers as an unchanged next state (log entry 5). The cases are the cells of the
rule's table that are not `accepted`, and beside them a `READ` with an index above 31, which no word
encodes (log entry 19). -/
def Obligations.CommandsNotEnabledWait : Prop :=
  ∀ (s : State) (b : Byte) (i : BitVec 8),
    (flagBusy s.PHASE = true → exec .start s = .next s) ∧
    (s.PHASE ≠ .absorb → exec (.push b) s = .next s ∧ exec .finish s = .next s) ∧
    (s.PHASE ≠ .done → exec (.read i) s = .next s) ∧
    (31 < i.toNat → exec (.read i) s = .next s)

/-- The frame of `PUSH` (R165): the one byte stored is `BUF[N]`, in `ABSORB` only; no other byte, no word
and no register but `LEN`, `N`, `T` and `PHASE` changes. -/
def Obligations.PushFrame : Prop :=
  ∀ (s t : State) (b : Byte), exec (.push b) s = .next t →
    (s.PHASE = .absorb → Memory.read t.BUF s.N.toNat = some b) ∧
    (∀ a, s.PHASE ≠ .absorb ∨ a ≠ s.N.toNat → Memory.read t.BUF a = Memory.read s.BUF a) ∧
    (∀ j, Memory.read t.W j = Memory.read s.W j) ∧
    t.S = s.S ∧ t.R = s.R ∧ t.TAIL = s.TAIL ∧ t.resp = s.resp ∧ t.turns = s.turns ∧
    t.resets = s.resets

/-- The frame of the commands that store nothing in `BUF` or `W` (R164, R166 to R168): `START` changes
`S`, `LEN`, `N`, `T`, `TAIL`, `PHASE` only, `FINISH` `PHASE` and `T` only, `READ` and `STAT` nothing of
the engine. -/
def Obligations.StoringNothingCommandsFrame : Prop :=
  ∀ (s t : State) (arg : BitVec 8),
    (exec .start s = .next t →
      (∀ a, Memory.read t.BUF a = Memory.read s.BUF a) ∧ (∀ j, Memory.read t.W j = Memory.read s.W j) ∧
      t.R = s.R ∧ t.resp = s.resp ∧ t.turns = s.turns ∧ t.resets = s.resets) ∧
    (exec .finish s = .next t →
      (∀ a, Memory.read t.BUF a = Memory.read s.BUF a) ∧ (∀ j, Memory.read t.W j = Memory.read s.W j) ∧
      t.S = s.S ∧ t.R = s.R ∧ t.N = s.N ∧ t.LEN = s.LEN ∧ t.TAIL = s.TAIL ∧ t.resp = s.resp ∧
      t.turns = s.turns ∧ t.resets = s.resets) ∧
    (exec (.read arg) s = .next t → s.SameEngine t ∧ t.turns = s.turns) ∧
    (exec .stat s = .next t → s.SameEngine t ∧ t.turns = s.turns)

/-- Rule R60: `READ` and `STAT` may be repeated and return the same byte, and two `START` steps leave the
engine as one does. -/
def Obligations.ReadsRepeatAndStartIsIdempotent : Prop :=
  (∀ (s t u : State) (i : Instr), (i = .stat ∨ ∃ a, i = .read a) →
    exec i s = .next t → exec i t = .next u →
      s.SameEngine t ∧ s.SameEngine u ∧
      ((s.resp = t.resp ∧ t.resp = u.resp) ∨ ∃ b, t.resp = s.resp ++ [b] ∧ u.resp = t.resp ++ [b])) ∧
  (∀ s t u : State, startEnabled s.PHASE = true → exec .start s = .next t → exec .start t = .next u →
    t.SameEngine u)

/-! ## The padder -/

/-- Rule R115: `PAD1` completes in its phase; the bytes before `N` are kept, the marker, the zeros and,
where `N ≤ 55`, the length follow, and nothing outside `BUF[N..63]` changes. -/
def Obligations.Pad1WritesMarkerZerosAndLength : Prop :=
  ∀ s : State, s.PHASE = .pad1 → ∃ t, exec .pad1 s = .next t ∧
    (∀ a, a < s.N.toNat ∨ 64 ≤ a → Memory.read t.BUF a = Memory.read s.BUF a) ∧
    Memory.read t.BUF s.N.toNat = some 0x80 ∧
    (s.N.toNat ≤ 55 →
      (∀ j, s.N.toNat < j → j ≤ 55 → Memory.read t.BUF j = some 0) ∧
      (∀ k, k < 8 → Memory.read t.BUF (56 + k) = some (s.LEN.extractLsb' (56 - 8 * k) 8)) ∧
      t.TAIL = .last) ∧
    (56 ≤ s.N.toNat →
      (∀ j, s.N.toNat < j → j ≤ 63 → Memory.read t.BUF j = some 0) ∧ t.TAIL = .more) ∧
    t = { s with BUF := t.BUF, TAIL := t.TAIL, N := 0, T := 0, PHASE := .loadw }

/-- Rule R116: `PAD2` completes in its phase: 56 zero bytes and the length, and nothing outside
`BUF[0..63]` changes. -/
def Obligations.Pad2WritesZerosAndLength : Prop :=
  ∀ s : State, s.PHASE = .pad2 → ∃ t, exec .pad2 s = .next t ∧
    (∀ j, j ≤ 55 → Memory.read t.BUF j = some 0) ∧
    (∀ k, k < 8 → Memory.read t.BUF (56 + k) = some (s.LEN.extractLsb' (56 - 8 * k) 8)) ∧
    (∀ a, 64 ≤ a → Memory.read t.BUF a = Memory.read s.BUF a) ∧
    t = { s with BUF := t.BUF, TAIL := .last, T := 0, PHASE := .loadw }

/-! ## The scheduler -/

/-- Rule R127: `LDW` at `(LOADW, T)`, `T` in `0..15`, completes when its four bytes hold values. -/
def Obligations.LdwLoadsAScheduleWord : Prop :=
  ∀ (s : State) (b0 b1 b2 b3 : Byte), s.PHASE = .loadw → s.T.toNat ≤ 15 →
    Memory.read s.BUF (4 * s.T.toNat) = some b0 → Memory.read s.BUF (4 * s.T.toNat + 1) = some b1 →
    Memory.read s.BUF (4 * s.T.toNat + 2) = some b2 → Memory.read s.BUF (4 * s.T.toNat + 3) = some b3 →
    exec .ldw s = .next { s with
      W := Memory.write s.W s.T.toNat (BitVec.ofNat 32
        (b0.toNat * 2 ^ 24 + b1.toNat * 2 ^ 16 + b2.toNat * 2 ^ 8 + b3.toNat))
      T := BitVec.ofNat 6 (s.T.toNat + 1)
      PHASE := if s.T.toNat = 15 then .expand else .loadw }

/-- Rule R128: `EXP` at `(EXPAND, T)`, `T` in `16..63`, completes when its four words hold values. -/
def Obligations.ExpExpandsAScheduleWord : Prop :=
  ∀ (s : State) (w2 w7 w15 w16 : Word), s.PHASE = .expand → 16 ≤ s.T.toNat →
    Memory.read s.W (s.T.toNat - 2) = some w2 → Memory.read s.W (s.T.toNat - 7) = some w7 →
    Memory.read s.W (s.T.toNat - 15) = some w15 → Memory.read s.W (s.T.toNat - 16) = some w16 →
    exec .exp s = .next { s with
      W := Memory.write s.W s.T.toNat (BitVec.ofNat 32
        ((ssig1 w2).toNat + w7.toNat + (ssig0 w15).toNat + w16.toNat))
      T := if s.T.toNat = 63 then 0 else BitVec.ofNat 6 (s.T.toNat + 1)
      PHASE := if s.T.toNat = 63 then .initw else .expand }

/-! ## The compressor -/

/-- Rule R142: `INITW` completes in its phase when `S` holds a value. -/
def Obligations.InitwCopiesTheRunningState : Prop :=
  ∀ (s : State) (v : Regs8), s.PHASE = .initw → s.S = some v →
    exec .initw s = .next { s with R := some v, T := 0, PHASE := .round }

/-- Rules R140 and R143: `ROUND` completes in its phase when `R` and `W[T]` hold values. -/
def Obligations.RoundMixesTheWorkingRegisters : Prop :=
  ∀ (s : State) (a b c d e f g h w T1 T2 : Word), s.PHASE = .round → s.R = some ⟨a, b, c, d, e, f, g, h⟩ →
    Memory.read s.W s.T.toNat = some w →
    T1 = h + (rotr e 6 ^^^ rotr e 11 ^^^ rotr e 25) + ((e &&& f) ^^^ (~~~e &&& g)) + romK s.T.toNat + w →
    T2 = (rotr a 2 ^^^ rotr a 13 ^^^ rotr a 22) + ((a &&& b) ^^^ (a &&& c) ^^^ (b &&& c)) →
    exec .round s = .next { s with
      R := some ⟨T1 + T2, a, b, c, d + T1, e, f, g⟩
      T := if s.T.toNat = 63 then 0 else BitVec.ofNat 6 (s.T.toNat + 1)
      PHASE := if s.T.toNat = 63 then .accum else .round }

/-- Rule R144: `ACC` completes in its phase when `S` and `R` hold values; `TAIL` chooses the phase. -/
def Obligations.AccAccumulatesAndBranches : Prop :=
  ∀ (s : State) (s0 s1 s2 s3 s4 s5 s6 s7 a b c d e f g h : Word), s.PHASE = .accum →
    s.S = some ⟨s0, s1, s2, s3, s4, s5, s6, s7⟩ → s.R = some ⟨a, b, c, d, e, f, g, h⟩ →
    exec .acc s = .next { s with
      S := some ⟨s0 + a, s1 + b, s2 + c, s3 + d, s4 + e, s5 + f, s6 + g, s7 + h⟩
      T := 0
      PHASE := match s.TAIL with
        | .none => .absorb
        | .more => .pad2
        | .last => .done }

/-- Rule R13 for the micro-operations: outside its phase one does nothing (log entry 5). -/
def Obligations.MicroOperationsDoNothingOutsideTheirPhase : Prop :=
  ∀ (s : State) (i : Instr) (p : Phase), microPhase i = some p → s.PHASE ≠ p → exec i s = .next s

/-- The frame of the micro-operations (R115, R116, R127, R128, R142 to R144): what each leaves unchanged
whenever it answers with a next state. The padder stores to `BUF[N..63]` or `BUF[0..63]`, the scheduler
to `W[T]`, the compressor to no array. -/
def Obligations.MicroOperationFrames : Prop :=
  ∀ s t : State,
    (∀ i, isMicroOperation i = true → exec i s = .next t →
      t.LEN = s.LEN ∧ t.cmds = s.cmds ∧ t.turns = s.turns ∧ t.resp = s.resp ∧ t.resets = s.resets) ∧
    (exec .pad1 s = .next t → (∀ a, a < s.N.toNat ∨ 64 ≤ a → Memory.read t.BUF a = Memory.read s.BUF a) ∧
      (∀ j, Memory.read t.W j = Memory.read s.W j) ∧ t.S = s.S ∧ t.R = s.R) ∧
    (exec .pad2 s = .next t → (∀ a, 64 ≤ a → Memory.read t.BUF a = Memory.read s.BUF a) ∧
      (∀ j, Memory.read t.W j = Memory.read s.W j) ∧ t.S = s.S ∧ t.R = s.R ∧ t.N = s.N) ∧
    (∀ i, i = .ldw ∨ i = .exp → exec i s = .next t →
      (∀ a, Memory.read t.BUF a = Memory.read s.BUF a) ∧
      (∀ j, j ≠ s.T.toNat → Memory.read t.W j = Memory.read s.W j) ∧
      t.S = s.S ∧ t.R = s.R ∧ t.N = s.N ∧ t.TAIL = s.TAIL) ∧
    (∀ i, i = .initw ∨ i = .round ∨ i = .acc → exec i s = .next t →
      (∀ a, Memory.read t.BUF a = Memory.read s.BUF a) ∧ (∀ j, Memory.read t.W j = Memory.read s.W j) ∧
      t.N = s.N ∧ t.TAIL = s.TAIL) ∧
    (∀ i, i = .initw ∨ i = .round → exec i s = .next t → t.S = s.S) ∧
    (exec .acc s = .next t → t.R = s.R)

/-! ## Storage that nothing has written, and where a step faults -/

/-- Rule R43 as the model takes it. In `step` (log entries 1 and 20) a read delivers the value an element holds,
and free bits where no step has written it since reset; the six instructions that read storage complete at
their position with every value the reads deliver. In `checkedStep` a step that would read an element holding
no value has the outcome `NoValue` at an element it would read (which of several, log entry 22), and every
other step the outcome of `step`. -/
def Obligations.ReadsOfUnwrittenStorageRunWithFreeBits : Prop :=
  ∀ s : State,
    ((∀ v, s.S = some v → readS s = v) ∧
      (s.S = none → ∀ i, i < 8 → (readS s).get i = Config.unwrittenS s.resets i)) ∧
    ((∀ v, s.R = some v → readR s = v) ∧
      (s.R = none → ∀ i, i < 8 → (readR s).get i = Config.unwrittenR s.resets i)) ∧
    (∀ a, (∀ v, Memory.read s.BUF a = some v → bufByte s a = v) ∧
      (Memory.read s.BUF a = none → bufByte s a = Config.unwrittenBUF s.resets a)) ∧
    (∀ j, (∀ v, Memory.read s.W j = some v → schedWord s j = v) ∧
      (Memory.read s.W j = none → schedWord s j = Config.unwrittenW s.resets j)) ∧
    (∀ i : BitVec 8, s.PHASE = .done → i.toNat ≤ 31 →
      exec (.read i) s = .next { s with
        resp := s.resp ++ [((readS s).get (i.toNat / 4)).extractLsb' (24 - 8 * (i.toNat % 4)) 8]
        cmds := s.cmds.tail }) ∧
    (s.PHASE = .loadw → s.T.toNat ≤ 15 →
      exec .ldw s = .next { s with
        W := Memory.write s.W s.T.toNat (be32 (bufByte s (4 * s.T.toNat)) (bufByte s (4 * s.T.toNat + 1))
          (bufByte s (4 * s.T.toNat + 2)) (bufByte s (4 * s.T.toNat + 3)))
        T := BitVec.ofNat 6 (s.T.toNat + 1)
        PHASE := if s.T.toNat = 15 then .expand else .loadw }) ∧
    (s.PHASE = .expand → 16 ≤ s.T.toNat →
      exec .exp s = .next { s with
        W := Memory.write s.W s.T.toNat (ssig1 (schedWord s (s.T.toNat - 2)) + schedWord s (s.T.toNat - 7)
          + ssig0 (schedWord s (s.T.toNat - 15)) + schedWord s (s.T.toNat - 16))
        T := if s.T.toNat = 63 then 0 else BitVec.ofNat 6 (s.T.toNat + 1)
        PHASE := if s.T.toNat = 63 then .initw else .expand }) ∧
    (s.PHASE = .initw → exec .initw s = .next { s with R := some (readS s), T := 0, PHASE := .round }) ∧
    (s.PHASE = .round →
      exec .round s = .next { s with
        R := some (roundRegs (readR s) (romK s.T.toNat) (schedWord s s.T.toNat))
        T := if s.T.toNat = 63 then 0 else BitVec.ofNat 6 (s.T.toNat + 1)
        PHASE := if s.T.toNat = 63 then .accum else .round }) ∧
    (s.PHASE = .accum →
      ∃ v, exec .acc s = .next { s with
          S := some v, T := 0
          PHASE := match s.TAIL with
            | .none => .absorb
            | .more => .pad2
            | .last => .done } ∧
        ∀ i, i < 8 → v.get i = (readS s).get i + (readR s).get i) ∧
    (∀ i : BitVec 8, s.PHASE = .done → i.toNat ≤ 31 → s.S = none →
      checkedExec (.read i) s = .fault (.noValue .S (i.toNat / 4))) ∧
    (s.PHASE = .loadw → s.T.toNat ≤ 15 → (∃ k, k < 4 ∧ Memory.read s.BUF (4 * s.T.toNat + k) = none) →
      ∃ k, k < 4 ∧ Memory.read s.BUF (4 * s.T.toNat + k) = none ∧
        checkedExec .ldw s = .fault (.noValue .BUF (4 * s.T.toNat + k))) ∧
    (s.PHASE = .expand → 16 ≤ s.T.toNat →
      (∃ d, d ∈ [2, 7, 15, 16] ∧ Memory.read s.W (s.T.toNat - d) = none) →
      ∃ d, d ∈ [2, 7, 15, 16] ∧ Memory.read s.W (s.T.toNat - d) = none ∧
        checkedExec .exp s = .fault (.noValue .W (s.T.toNat - d))) ∧
    (s.PHASE = .initw → s.S = none → ∃ k, k < 8 ∧ checkedExec .initw s = .fault (.noValue .S k)) ∧
    (s.PHASE = .round → s.R = none ∨ Memory.read s.W s.T.toNat = none →
      (s.R = none ∧ ∃ k, k < 8 ∧ checkedExec .round s = .fault (.noValue .R k)) ∨
        (Memory.read s.W s.T.toNat = none ∧ checkedExec .round s = .fault (.noValue .W s.T.toNat))) ∧
    (s.PHASE = .accum → s.S = none ∨ s.R = none →
      ∃ x k, k < 8 ∧ ((x = .S ∧ s.S = none) ∨ (x = .R ∧ s.R = none)) ∧
        checkedExec .acc s = .fault (.noValue x k)) ∧
    (∀ i, noValueReads i s = [] → checkedExec i s = liftFault (exec i s)) ∧
    (∀ sel i, s.selected = some sel → decode sel = .ok i → checkedStep s = checkedExec i s.endTurn)

/-- The model's choice of log entry 8: at a sequencer position outside the table of R36 the scheduler's
micro-operations fault with `BadControl`. -/
def Obligations.PositionsOutsideTheTableFault : Prop :=
  ∀ s : State,
    (s.PHASE = .loadw → 16 ≤ s.T.toNat → exec .ldw s = .fault .badControl) ∧
    (s.PHASE = .expand → s.T.toNat ≤ 15 → exec .exp s = .fault .badControl)

/-! ## Invariants and whole-machine rules -/

/-- The invariant holds of the reset state. -/
def Obligations.ResetStateSatisfiesTheInvariant : Prop := State.reset.Inv

/-- Every step keeps the invariant: R38 (a) to (h), the canonical form of `BUF` and `W`, and the clause of
log entry 16, from any state that satisfies it. -/
def Obligations.EveryStepKeepsTheInvariant : Prop :=
  ∀ s t : State, s.Inv → step s = .next t → t.Inv

/-- Rule R38, clause by clause, of every state a run from reset reaches. -/
def Obligations.ReachableStatesSatisfyRule38 : Prop :=
  ∀ s : State, Reachable s →
    (s.PHASE = .loadw → s.T.toNat ≤ 15) ∧ (s.PHASE = .expand → 16 ≤ s.T.toNat) ∧
    (s.PHASE ≠ .loadw → s.PHASE ≠ .expand → s.PHASE ≠ .round → s.T = 0) ∧
    (s.PHASE = .idle ∨ s.PHASE = .absorb ∨ s.PHASE = .pad1 → s.TAIL = .none) ∧
    (s.PHASE = .pad2 → s.TAIL = .more) ∧ (s.PHASE = .done → s.TAIL = .last) ∧
    (s.PHASE ≠ .absorb → s.PHASE ≠ .pad1 → s.N = 0) ∧
    (s.PHASE = .absorb ∨ s.PHASE = .pad1 → s.N.toNat = s.LEN.toNat / 8 % 64) ∧
    s.LEN.toNat % 8 = 0 ∧
    (s.PHASE ≠ .idle → ∃ v, s.S = some v) ∧
    (s.PHASE = .loadw → (∀ j, j < 64 → (Memory.read s.BUF j).isSome = true) ∧
      ∀ j, j < s.T.toNat → (Memory.read s.W j).isSome = true) ∧
    (s.PHASE = .expand → ∀ j, j < s.T.toNat → (Memory.read s.W j).isSome = true) ∧
    (s.PHASE = .initw ∨ s.PHASE = .round ∨ s.PHASE = .accum →
      ∀ j, j < 64 → (Memory.read s.W j).isSome = true) ∧
    (s.PHASE = .round ∨ s.PHASE = .accum → ∃ v, s.R = some v) ∧
    (s.PHASE = .absorb ∨ s.PHASE = .pad1 → ∀ j, j < s.N.toNat → (Memory.read s.BUF j).isSome = true)

/-- Rules R44 and R187: from a state that satisfies the invariant no step faults or reads an element that
holds no value, so that `checkedStep` agrees with `step`, and a step is refused only for a reserved word on the
host's turn (log entry 6). -/
def Obligations.StepsFromTheInvariantNeverFault : Prop :=
  ∀ s : State, s.Inv →
    (∀ sel i, s.selected = some sel → decode sel = .ok i → noValueReads i s.endTurn = []) ∧
    checkedStep s = liftFault (step s) ∧
    ((∃ t, step s = .next t) ∨
      (step s = .refused .reservedCommand ∧ s.turnNow = .host ∧
        ∃ c rest, s.cmds = c :: rest ∧ decode (.cmd c) = .error .reservedCommand))

/-- Rule R44: no run from reset ever faults, in `step` or in `checkedStep`, or reads storage that holds no value;
and where an instruction reads no such element, its outcome does not depend on the free bits (log entry 20). -/
def Obligations.RunsFromResetNeverFault : Prop :=
  (∀ s : State, Reachable s →
    (∀ f, step s ≠ .fault f) ∧ (∀ f, checkedStep s ≠ .fault f) ∧
    ∀ sel i, s.selected = some sel → decode sel = .ok i → noValueReads i s.endTurn = []) ∧
  (∀ (s t : State) (i : Instr) (r : Nat), i ≠ .reset → noValueReads i s = [] → exec i s = .next t →
    exec i { s with resets := r } = .next { t with resets := r })

/-- Rule R37: the four status flags are functions of `PHASE`, exactly one is 1, and after reset it is
`idle`. -/
def Obligations.ExactlyOneStatusFlag : Prop :=
  (∀ s : State,
    (flagIdle s.PHASE = true ↔ s.PHASE = .idle) ∧ (flagInReady s.PHASE = true ↔ s.PHASE = .absorb) ∧
    (flagBusy s.PHASE = true ↔
      s.PHASE ∈ [Phase.pad1, .pad2, .loadw, .expand, .initw, .round, .accum]) ∧
    (flagDvalid s.PHASE = true ↔ s.PHASE = .done) ∧
    [flagIdle s.PHASE, flagInReady s.PHASE, flagBusy s.PHASE, flagDvalid s.PHASE].count true = 1) ∧
  flagIdle State.reset.PHASE = true

/-- Rule R62: a state-changing host command and a micro-operation are never enabled in the same state: in
a busy phase `START`, `PUSH`, `FINISH` and `READ` do nothing, elsewhere every micro-operation does
nothing (log entry 5). -/
def Obligations.HostAndEngineAreNeverBothEnabled : Prop :=
  ∀ (s : State) (i : Instr),
    (flagBusy s.PHASE = true → isMicroOperation i = false → i ≠ .stat → i ≠ .reset → exec i s = .next s) ∧
    (flagBusy s.PHASE = false → isMicroOperation i = true → exec i s = .next s)

/-- Rules R36 and R171: every step but `RESET` follows an edge of the sequencer's table or leaves
`(PHASE, T)` as it is, and the engine's turn in a busy phase always follows an edge. -/
def Obligations.SequencerFollowsTheTable : Prop :=
  ∀ s t : State, step s = .next t → s.turnNow ≠ .rst 1 →
    ((t.PHASE = s.PHASE ∧ t.T = s.T) ∨ seqEdge s t) ∧
    (flagBusy s.PHASE = true → s.turnNow = .engine → seqEdge s t)

/-- Rule R202: in a busy phase every step but `RESET` and the engine's own micro-operation leaves the
engine as it is, and in `DONE` every step but `RESET` and an accepted `START` keeps the digest. -/
def Obligations.OnlyResetAbortsABusyPhase : Prop :=
  ∀ s t : State, step s = .next t →
    (flagBusy s.PHASE = true → s.turnNow ≠ .rst 1 → s.turnNow ≠ .engine → s.SameEngine t) ∧
    (s.PHASE = .done → s.turnNow ≠ .rst 1 →
      (t.PHASE = .done ∧ t.S = s.S) ∨
        (t.PHASE = .absorb ∧ s.turnNow = .host ∧
          ∃ c rest, s.cmds = c :: rest ∧ decode (.cmd c) = .ok .start ∧ t.cmds = rest))

/-- Rules R171 and R210: in every state the control registers after a step depend
on the control registers and the kinds of the presented commands only, never on message bytes or any
storage. -/
def Obligations.ControlFlowDoesNotDependOnData : Prop :=
  ∀ s s' t : State, sameControl s s' → step s = .next t →
    ∃ t', step s' = .next t' ∧ sameControl t t'

/-- Rule R211: what a host step puts on the response port does not depend on `BUF`, `W` or `R`, nor on `S`
outside `DONE`, nor on the free bits (log entry 20) but those a `READ` in `DONE` delivers. -/
def Obligations.ResidueIsNotVisible : Prop :=
  ∀ s s' t t' : State, s'.PHASE = s.PHASE → s'.cmds = s.cmds → s'.turns = s.turns → s'.resp = s.resp →
    (s.PHASE = .done → readS s' = readS s) → step s = .next t → step s' = .next t' → t'.resp = t.resp

/-- Rule R170: every busy period ends: while no reset or withdrawal comes and no reserved word is
presented, the engine reaches a phase that is not busy (fairness: log entry 3). -/
def Obligations.BusyPeriodsEnd : Prop :=
  ∀ s : State, s.Inv → s.undisturbed → noReserved s.cmds → flagBusy s.PHASE = true →
    ∃ k t, Host.Core.run Sys2Proof.core k s = .next t ∧ flagBusy t.PHASE = false

/-! ## Word functions -/

/-- Rules R90 and R93: `add32` is addition modulo 2^32; bit `i` of `rotr(x, n)` is bit `(i + n) mod 32`
of `x`, and for `0 < n < 32` it is the document's shift formula. -/
def Obligations.AdditionWrapsAndRotationMovesBits : Prop :=
  (∀ x y : Word, (add32 x y).toNat = (x.toNat + y.toNat) % 2 ^ 32) ∧
  (∀ (x : Word) (n i : Nat), i < 32 → (rotr x n).getLsbD i = x.getLsbD ((i + n) % 32)) ∧
  (∀ (x : Word) (n : Nat), 0 < n → n < 32 → rotr x n = shr x n ||| shl x (32 - n))

/-- Rules R94 and R95: `Ch` is a multiplexer and `Maj` a majority, bit by bit. -/
def Obligations.ChSelectsAndMajVotes : Prop :=
  ∀ (x y z : Word) (i : Nat), i < 32 →
    (Ch x y z).getLsbD i = (if x.getLsbD i = true then y.getLsbD i else z.getLsbD i) ∧
    ((Maj x y z).getLsbD i = true ↔
      2 ≤ [x.getLsbD i, y.getLsbD i, z.getLsbD i].count true)

/-- Rules R96 to R99: the four sigma functions bit by bit; the third term of the small ones is a shift. -/
def Obligations.SigmaFunctionsBitByBit : Prop :=
  ∀ (x : Word) (i : Nat), i < 32 →
    (bsig0 x).getLsbD i
      = ((x.getLsbD ((i + 2) % 32) ^^ x.getLsbD ((i + 13) % 32)) ^^ x.getLsbD ((i + 22) % 32)) ∧
    (bsig1 x).getLsbD i
      = ((x.getLsbD ((i + 6) % 32) ^^ x.getLsbD ((i + 11) % 32)) ^^ x.getLsbD ((i + 25) % 32)) ∧
    (ssig0 x).getLsbD i
      = ((x.getLsbD ((i + 7) % 32) ^^ x.getLsbD ((i + 18) % 32)) ^^ (decide (i + 3 < 32) && x.getLsbD (i + 3))) ∧
    (ssig1 x).getLsbD i
      = ((x.getLsbD ((i + 17) % 32) ^^ x.getLsbD ((i + 19) % 32)) ^^
          (decide (i + 10 < 32) && x.getLsbD (i + 10)))

/-- Rules R100 to R102: `be32` and `be64` are big-endian, and `bytes32` is the inverse of `be32`. -/
def Obligations.WordsAndBytesAreBigEndian : Prop :=
  (∀ b0 b1 b2 b3 : Byte, (be32 b0 b1 b2 b3).toNat
      = b0.toNat * 2 ^ 24 + b1.toNat * 2 ^ 16 + b2.toNat * 2 ^ 8 + b3.toNat) ∧
  (∀ b0 b1 b2 b3 : Byte, bytes32 (be32 b0 b1 b2 b3) = [b0, b1, b2, b3]) ∧
  (∀ x : Word, be32 (byte32 x 0) (byte32 x 1) (byte32 x 2) (byte32 x 3) = x) ∧
  (∀ v : BitVec 64, (be64 v).length = 8 ∧ (be64 v).foldl (fun n b => n * 256 + b.toNat) 0 = v.toNat)

/-- Rule R147: a round is a bijection of the registers for a fixed constant and word, with the inverse the
rule gives. -/
def Obligations.RoundIsInvertible : Prop :=
  ∀ k w : Word, Function.Bijective (fun r => roundRegs r k w) ∧
    ∀ r r' : Regs8, r' = roundRegs r k w →
      r.a = r'.b ∧ r.b = r'.c ∧ r.c = r'.d ∧ r.e = r'.f ∧ r.f = r'.g ∧ r.g = r'.h ∧
      r.d = r'.e - (r'.a - (bsig0 r.a + Maj r.a r.b r.c)) ∧
      r.h = (r'.a - (bsig0 r.a + Maj r.a r.b r.c)) - bsig1 r.e - Ch r.e r.f r.g - k - w

/-! ## The document's functions -/

/-- Rule R110: `pad(M) = M ++ [0x80] ++ zeros(k) ++ be64(8*L)` with `k` the least number such that
`(L + 1 + k) mod 64 = 56`. For `L ≥ 2^61`, where R110 and R114 give `pad` no meaning, the length field modulo
2^64 is the model's choice (log entry 7). -/
def Obligations.PadHasTheFewestZeros : Prop :=
  ∀ M : List Byte, ∃ k : Nat,
    pad M = M ++ [0x80] ++ List.replicate k 0 ++ be64 (BitVec.ofNat 64 (8 * M.length)) ∧
    (M.length + 1 + k) % 64 = 56 ∧ ∀ k', (M.length + 1 + k') % 64 = 56 → k ≤ k'

/-- Rules R111 and R112: the closed forms of the padding, its length, and that it loses no message. For
`L ≥ 2^61` the padding is the model's choice (log entry 7). -/
def Obligations.PadLengthAndInjectivity : Prop :=
  (∀ M : List Byte,
    (M.length % 64 ≤ 55 → zeroCount M.length = 55 - M.length % 64) ∧
    (56 ≤ M.length % 64 → zeroCount M.length = 119 - M.length % 64) ∧
    (pad M).length = M.length + 9 + zeroCount M.length ∧
    (pad M).length = 64 * ((M.length + 8) / 64 + 1) ∧
    (pad M).length % 64 = 0 ∧ M.length + 9 ≤ (pad M).length ∧ (pad M).length ≤ M.length + 72 ∧
    (pad M).drop ((pad M).length - 8) = be64 (BitVec.ofNat 64 (8 * M.length))) ∧
  (∀ M M' : List Byte, M.length < 2 ^ 61 → M'.length < 2 ^ 61 → pad M = pad M' → M = M')

/-- Rules R56 and R113: the blocks of `pad(M)` are its 64-byte windows in order, and the first `L div 64`
consist of message bytes. For `L ≥ 2^61` the padding is the model's choice (log entry 7). -/
def Obligations.BlocksAreTheWindowsOfThePaddedMessage : Prop :=
  ∀ M : List Byte, (blocksOf M).flatten = pad M ∧ (∀ B ∈ blocksOf M, B.length = 64) ∧
    (blocksOf M).length = blockCount M.length ∧
    ∀ i, i < M.length / 64 → (blocksOf M).getD i [] = (M.drop (64 * i)).take 64

/-- Rules R125 and R126: a schedule has 64 words: the sixteen big-endian words of the block, then the
recurrence. -/
def Obligations.ScheduleSatisfiesTheRecurrence : Prop :=
  ∀ B : List Byte, (sched B).length = 64 ∧
    (∀ j, j < 16 → (sched B).getD j 0
      = be32 (B.getD (4 * j) 0) (B.getD (4 * j + 1) 0) (B.getD (4 * j + 2) 0) (B.getD (4 * j + 3) 0)) ∧
    (∀ j, 16 ≤ j → j < 64 → (sched B).getD j 0
      = ssig1 ((sched B).getD (j - 2) 0) + (sched B).getD (j - 7) 0
        + ssig0 ((sched B).getD (j - 15) 0) + (sched B).getD (j - 16) 0)

/-- Rules R28, R54 and R161: the serialised state is 32 bytes, byte `4i + k` of it is
`S[i][31 − 8k : 24 − 8k]`, it is what `DIGEST` shows, and serialising is a bijection. -/
def Obligations.SerialisationIsTheDigestView : Prop :=
  (∀ r : Regs8, (ser r).length = 32 ∧
    ∀ i k, i < 8 → k < 4 →
      (ser r)[4 * i + k]? = some ((r.get i).extractLsb' (24 - 8 * k) 8) ∧
      digestByte r (4 * i + k) = (r.get i).extractLsb' (24 - 8 * k) 8) ∧
  (∀ r q : Regs8, ser r = ser q → r = q) ∧
  (∀ bs : List Byte, bs.length = 32 → ∃ r, ser r = bs)

/-- The document's two known answers (95_test_vectors.md vectors S1 and S2): the digests of the empty
message and of `abc`. -/
def Obligations.KnownAnswerDigests : Prop :=
  (digest []).foldl (fun n b => n * 256 + b.toNat) 0
    = 0xe3b0c44298fc1c149afbf4c8996fb92427ae41e4649b934ca495991b7852b855 ∧
  (digest [0x61, 0x62, 0x63]).foldl (fun n b => n * 256 + b.toNat) 0
    = 0xba7816bf8f01cfea414140de5dae2223b00361a396177a9cb410ff61f20015ad

/-! ## The machine computes the document's functions -/

/-- Rule R130: from `(LOADW, 0)` with `BUF = B` the next 64 engine steps end at `(INITW, 0)` with
`W = sched(B)` and nothing else changed, whatever `W` held before (R129). -/
def Obligations.SchedulerComputesTheSchedule : Prop :=
  ∀ (s : State) (B : List Byte), s.PHASE = .loadw → s.T = 0 → B.length = 64 → s.BUF = Memory.ofList B →
    Memory.wf 64 s.W = true → (∀ a ∈ s.turns, a = .engine) →
    Host.Core.run Sys2Proof.core 64 s = .next { s with
      PHASE := .initw, T := 0, W := Memory.ofList (sched B), turns := s.turns.drop 64 }

/-- Rule R146: from `(INITW, 0)` with `S = v` and `W = Wd` the next 66 engine steps end with
`S = compress(v, Wd)` in the phase `TAIL` names, whatever `R` held before (R149); and from `(LOADW, 0)`
with `BUF = B` and `S = v`, after 130 engine steps `S = block(v, B)`. -/
def Obligations.CompressorComputesCompress : Prop :=
  (∀ (s : State) (v : Regs8) (Wd : List Word), s.PHASE = .initw → s.T = 0 → s.S = some v →
    Wd.length = 64 → s.W = Memory.ofList Wd → (∀ a ∈ s.turns, a = .engine) →
    ∃ r, Host.Core.run Sys2Proof.core 66 s = .next { s with
      S := some (compress v Wd), R := some r, T := 0, turns := s.turns.drop 66
      PHASE := match s.TAIL with
        | .none => .absorb
        | .more => .pad2
        | .last => .done }) ∧
  (∀ (s : State) (B : List Byte) (v : Regs8), s.PHASE = .loadw → s.T = 0 → B.length = 64 →
    s.BUF = Memory.ofList B → Memory.wf 64 s.W = true → s.S = some v → (∀ a ∈ s.turns, a = .engine) →
    ∃ r, Host.Core.run Sys2Proof.core 130 s = .next { s with
      S := some (blockFn v B), R := some r, W := Memory.ofList (sched B), T := 0
      turns := s.turns.drop 130
      PHASE := match s.TAIL with
        | .none => .absorb
        | .more => .pad2
        | .last => .done })

/-- Rules R110, R115 and R116, the padder's half of R117: when the bytes of the open block are in `BUF` and
`LEN = 8L`, `PAD1`, and `PAD2` after it, leave in `BUF` the last block or the last two blocks of
`pad(M)`. -/
def Obligations.PadderBuildsTheLastBlocks : Prop :=
  ∀ (s : State) (M : List Byte), M.length < 2 ^ 61 → s.PHASE = .pad1 →
    s.N.toNat = M.length % 64 → s.LEN.toNat = 8 * M.length →
    s.BUF = Memory.writeList s.BUF 0 (M.drop (64 * (M.length / 64))) → Memory.wf 64 s.BUF = true →
    ∃ t, exec .pad1 s = .next t ∧
      t.BUF = Memory.ofList ((blocksOf M).getD (M.length / 64) []) ∧
      (t.TAIL = .last ↔ blockCount M.length = M.length / 64 + 1) ∧
      (t.TAIL = .more → ∀ u : State, u.PHASE = .pad2 → u.LEN = s.LEN → Memory.wf 64 u.BUF = true →
        ∃ v, exec .pad2 u = .next v ∧ v.BUF = Memory.ofList ((blocksOf M).getD (M.length / 64 + 1) []) ∧
          blockCount M.length = M.length / 64 + 2)

/-- Rule R172, the refinement: from any state that satisfies the invariant with the engine not busy, a
transaction presented with `STAT` commands anywhere among it, under any order of host and engine turns
and turns of the reset bit 0 (log entry 3), ends in `DONE` with every command of the transaction accepted and
`ser(S) = digest(M)`. -/
def Obligations.TransactionComputesTheDigest : Prop :=
  ∀ (s : State) (M : List Byte), s.Inv → flagBusy s.PHASE = false → M.length < 2 ^ 61 → s.undisturbed →
    s.cmds.filter (fun c => !isStat c) = transaction M →
    ∃ k t v, Host.Core.run Sys2Proof.core k s = .next t ∧ t.PHASE = .done ∧
      t.cmds.filter (fun c => !isStat c) = [] ∧ t.S = some v ∧ ser v = digest M

/-- Rule R172, what the host reads: followed by `READALL`, the transaction puts the 32 bytes of
`digest(M)` on the response port, in order. That `DONE` is reached rests on the turns of log entry 3. -/
def Obligations.TransactionDeliversTheDigest : Prop :=
  ∀ (s : State) (M : List Byte), s.Inv → flagBusy s.PHASE = false → M.length < 2 ^ 61 → s.undisturbed →
    s.cmds = transaction M ++ readAll →
    ∃ k t, Host.Core.run Sys2Proof.core k s = .next t ∧ t.PHASE = .done ∧ t.cmds = [] ∧
      t.resp = s.resp ++ digest M

/-- Rule R117: the blocks the scheduler sees in a transaction are exactly the blocks of `pad(M)`, in
order. That the run reaches `DONE` rests on the turns of log entry 3. -/
def Obligations.SchedulerSeesThePaddedBlocks : Prop :=
  ∀ (s : State) (M : List Byte), s.Inv → flagBusy s.PHASE = false → M.length < 2 ^ 61 → s.undisturbed →
    s.cmds = transaction M →
    ∃ k t, Host.Core.run Sys2Proof.core k s = .next t ∧ t.PHASE = .done ∧ t.cmds = [] ∧
      blocksLoaded k s = blocksOf M

/-- Rule R173: with no turn wasted a transaction takes `L + 2` host steps and `130 * nb(L) + p` engine
steps, `p` = 1 if `L mod 64 ≤ 55` and 2 otherwise, and is in `DONE` then and at no step before. The order
of the steps is the model's with no turn listed (log entry 3). -/
def Obligations.TransactionStepCount : Prop :=
  ∀ (s : State) (M : List Byte) (hostSteps engineSteps n : Nat), s.Inv → flagBusy s.PHASE = false →
    M.length < 2 ^ 61 → s.turns = [] → s.cmds = transaction M → hostSteps = M.length + 2 →
    engineSteps = 130 * blockCount M.length + (if M.length % 64 ≤ 55 then 1 else 2) →
    n = hostSteps + engineSteps →
    (movers n s).count .host = hostSteps ∧ (movers n s).count .engine = engineSteps ∧
    (∃ t, Host.Core.run Sys2Proof.core n s = .next t ∧ t.PHASE = .done) ∧
    ∀ k t, 1 ≤ k → k < n → Host.Core.run Sys2Proof.core k s = .next t → t.PHASE ≠ .done
end

