-- ==== Sys2Proof/Laws/State.lean ====
section
/-! SUPPORT. What each update of the state leaves in each field, true by computation. -/

namespace Sys2Proof.Machine

/-! A command leaves the port. -/

@[simp] theorem State.accept_PHASE (s : State) : (s.accept).PHASE = s.PHASE := rfl
@[simp] theorem State.accept_TAIL (s : State) : (s.accept).TAIL = s.TAIL := rfl
@[simp] theorem State.accept_N (s : State) : (s.accept).N = s.N := rfl
@[simp] theorem State.accept_T (s : State) : (s.accept).T = s.T := rfl
@[simp] theorem State.accept_LEN (s : State) : (s.accept).LEN = s.LEN := rfl
@[simp] theorem State.accept_S (s : State) : (s.accept).S = s.S := rfl
@[simp] theorem State.accept_R (s : State) : (s.accept).R = s.R := rfl
@[simp] theorem State.accept_W (s : State) : (s.accept).W = s.W := rfl
@[simp] theorem State.accept_BUF (s : State) : (s.accept).BUF = s.BUF := rfl
@[simp] theorem State.accept_cmds (s : State) : (s.accept).cmds = s.cmds.tail := rfl
@[simp] theorem State.accept_turns (s : State) : (s.accept).turns = s.turns := rfl
@[simp] theorem State.accept_resp (s : State) : (s.accept).resp = s.resp := rfl
@[simp] theorem State.accept_resets (s : State) : (s.accept).resets = s.resets := rfl

/-! A command leaves the port and a byte goes out. -/

@[simp] theorem State.respond_PHASE (s : State) (b : Byte) : (s.respond b).PHASE = s.PHASE := rfl
@[simp] theorem State.respond_TAIL (s : State) (b : Byte) : (s.respond b).TAIL = s.TAIL := rfl
@[simp] theorem State.respond_N (s : State) (b : Byte) : (s.respond b).N = s.N := rfl
@[simp] theorem State.respond_T (s : State) (b : Byte) : (s.respond b).T = s.T := rfl
@[simp] theorem State.respond_LEN (s : State) (b : Byte) : (s.respond b).LEN = s.LEN := rfl
@[simp] theorem State.respond_S (s : State) (b : Byte) : (s.respond b).S = s.S := rfl
@[simp] theorem State.respond_R (s : State) (b : Byte) : (s.respond b).R = s.R := rfl
@[simp] theorem State.respond_W (s : State) (b : Byte) : (s.respond b).W = s.W := rfl
@[simp] theorem State.respond_BUF (s : State) (b : Byte) : (s.respond b).BUF = s.BUF := rfl
@[simp] theorem State.respond_cmds (s : State) (b : Byte) : (s.respond b).cmds = s.cmds.tail := rfl
@[simp] theorem State.respond_turns (s : State) (b : Byte) : (s.respond b).turns = s.turns := rfl
@[simp] theorem State.respond_resp (s : State) (b : Byte) : (s.respond b).resp = s.resp ++ [b] := rfl
@[simp] theorem State.respond_resets (s : State) (b : Byte) : (s.respond b).resets = s.resets := rfl

/-! A turn ends. -/

@[simp] theorem State.endTurn_PHASE (s : State) : (s.endTurn).PHASE = s.PHASE := rfl
@[simp] theorem State.endTurn_TAIL (s : State) : (s.endTurn).TAIL = s.TAIL := rfl
@[simp] theorem State.endTurn_N (s : State) : (s.endTurn).N = s.N := rfl
@[simp] theorem State.endTurn_T (s : State) : (s.endTurn).T = s.T := rfl
@[simp] theorem State.endTurn_LEN (s : State) : (s.endTurn).LEN = s.LEN := rfl
@[simp] theorem State.endTurn_S (s : State) : (s.endTurn).S = s.S := rfl
@[simp] theorem State.endTurn_R (s : State) : (s.endTurn).R = s.R := rfl
@[simp] theorem State.endTurn_W (s : State) : (s.endTurn).W = s.W := rfl
@[simp] theorem State.endTurn_BUF (s : State) : (s.endTurn).BUF = s.BUF := rfl
@[simp] theorem State.endTurn_cmds (s : State) : (s.endTurn).cmds = s.cmds := rfl
@[simp] theorem State.endTurn_turns (s : State) : (s.endTurn).turns = s.turns.tail := rfl
@[simp] theorem State.endTurn_resp (s : State) : (s.endTurn).resp = s.resp := rfl
@[simp] theorem State.endTurn_resets (s : State) : (s.endTurn).resets = s.resets := rfl

/-! The sequencer's own moves touch `PHASE` and `T` only. -/

@[simp] theorem afterLdw_TAIL (s : State) : (afterLdw s).TAIL = s.TAIL := by
  unfold afterLdw; split <;> rfl
@[simp] theorem afterLdw_N (s : State) : (afterLdw s).N = s.N := by
  unfold afterLdw; split <;> rfl
@[simp] theorem afterLdw_LEN (s : State) : (afterLdw s).LEN = s.LEN := by
  unfold afterLdw; split <;> rfl
@[simp] theorem afterLdw_S (s : State) : (afterLdw s).S = s.S := by
  unfold afterLdw; split <;> rfl
@[simp] theorem afterLdw_R (s : State) : (afterLdw s).R = s.R := by
  unfold afterLdw; split <;> rfl
@[simp] theorem afterLdw_W (s : State) : (afterLdw s).W = s.W := by
  unfold afterLdw; split <;> rfl
@[simp] theorem afterLdw_BUF (s : State) : (afterLdw s).BUF = s.BUF := by
  unfold afterLdw; split <;> rfl
@[simp] theorem afterLdw_cmds (s : State) : (afterLdw s).cmds = s.cmds := by
  unfold afterLdw; split <;> rfl
@[simp] theorem afterLdw_turns (s : State) : (afterLdw s).turns = s.turns := by
  unfold afterLdw; split <;> rfl
@[simp] theorem afterLdw_resp (s : State) : (afterLdw s).resp = s.resp := by
  unfold afterLdw; split <;> rfl
@[simp] theorem afterLdw_resets (s : State) : (afterLdw s).resets = s.resets := by
  unfold afterLdw; split <;> rfl

@[simp] theorem afterExp_TAIL (s : State) : (afterExp s).TAIL = s.TAIL := by
  unfold afterExp; split <;> rfl
@[simp] theorem afterExp_N (s : State) : (afterExp s).N = s.N := by
  unfold afterExp; split <;> rfl
@[simp] theorem afterExp_LEN (s : State) : (afterExp s).LEN = s.LEN := by
  unfold afterExp; split <;> rfl
@[simp] theorem afterExp_S (s : State) : (afterExp s).S = s.S := by
  unfold afterExp; split <;> rfl
@[simp] theorem afterExp_R (s : State) : (afterExp s).R = s.R := by
  unfold afterExp; split <;> rfl
@[simp] theorem afterExp_W (s : State) : (afterExp s).W = s.W := by
  unfold afterExp; split <;> rfl
@[simp] theorem afterExp_BUF (s : State) : (afterExp s).BUF = s.BUF := by
  unfold afterExp; split <;> rfl
@[simp] theorem afterExp_cmds (s : State) : (afterExp s).cmds = s.cmds := by
  unfold afterExp; split <;> rfl
@[simp] theorem afterExp_turns (s : State) : (afterExp s).turns = s.turns := by
  unfold afterExp; split <;> rfl
@[simp] theorem afterExp_resp (s : State) : (afterExp s).resp = s.resp := by
  unfold afterExp; split <;> rfl
@[simp] theorem afterExp_resets (s : State) : (afterExp s).resets = s.resets := by
  unfold afterExp; split <;> rfl

@[simp] theorem afterRound_TAIL (s : State) : (afterRound s).TAIL = s.TAIL := by
  unfold afterRound; split <;> rfl
@[simp] theorem afterRound_N (s : State) : (afterRound s).N = s.N := by
  unfold afterRound; split <;> rfl
@[simp] theorem afterRound_LEN (s : State) : (afterRound s).LEN = s.LEN := by
  unfold afterRound; split <;> rfl
@[simp] theorem afterRound_S (s : State) : (afterRound s).S = s.S := by
  unfold afterRound; split <;> rfl
@[simp] theorem afterRound_R (s : State) : (afterRound s).R = s.R := by
  unfold afterRound; split <;> rfl
@[simp] theorem afterRound_W (s : State) : (afterRound s).W = s.W := by
  unfold afterRound; split <;> rfl
@[simp] theorem afterRound_BUF (s : State) : (afterRound s).BUF = s.BUF := by
  unfold afterRound; split <;> rfl
@[simp] theorem afterRound_cmds (s : State) : (afterRound s).cmds = s.cmds := by
  unfold afterRound; split <;> rfl
@[simp] theorem afterRound_turns (s : State) : (afterRound s).turns = s.turns := by
  unfold afterRound; split <;> rfl
@[simp] theorem afterRound_resp (s : State) : (afterRound s).resp = s.resp := by
  unfold afterRound; split <;> rfl
@[simp] theorem afterRound_resets (s : State) : (afterRound s).resets = s.resets := by
  unfold afterRound; split <;> rfl

end Sys2Proof.Machine
end

