-- ==== Sys2Proof/Laws/Memory.lean ====
section
/-! SUPPORT. The laws of the storage arrays: what is read after a write, that every operation keeps the
canonical form, and that canonical arrays with equal reads are equal. -/

namespace Sys2Proof.Machine

variable {w : Nat}

/-! ## Reads after writes -/

@[simp] theorem Memory.read_nil (a : Nat) : Memory.read ([] : List (Nat × BitVec w)) a = none := rfl

theorem Memory.read_write (m : List (Nat × BitVec w)) (a b : Nat) (v : BitVec w) :
    Memory.read (Memory.write m a v) b = if b = a then some v else Memory.read m b := by
  induction m with
  | nil => simp [Memory.write, Memory.read]
  | cons c m ih =>
    obtain ⟨k, u⟩ := c
    simp only [Memory.write]
    split
    · simp [Memory.read]
    · split
      · subst a
        simp only [Memory.read]
        split <;> rfl
      · simp only [Memory.read, ih]
        grind

@[simp] theorem Memory.read_write_same (m : List (Nat × BitVec w)) (a : Nat) (v : BitVec w) :
    Memory.read (Memory.write m a v) a = some v := by
  simp [Memory.read_write]

theorem Memory.read_write_other {m : List (Nat × BitVec w)} {a b : Nat} (v : BitVec w) (h : b ≠ a) :
    Memory.read (Memory.write m a v) b = Memory.read m b := by
  simp [Memory.read_write, h]

theorem Memory.read_writeList (vs : List (BitVec w)) (m : List (Nat × BitVec w)) (a b : Nat) :
    Memory.read (Memory.writeList m a vs) b
      = if a ≤ b ∧ b < a + vs.length then vs[b - a]? else Memory.read m b := by
  induction vs generalizing m a with
  | nil =>
    have h : ¬(a ≤ b ∧ b < a + ([] : List (BitVec w)).length) := by simp
    simp only [Memory.writeList, if_neg h]
  | cons v vs ih =>
    simp only [Memory.writeList, ih, Memory.read_write, List.length_cons]
    by_cases hb : b = a
    · subst hb
      simp
    · by_cases h : a + 1 ≤ b ∧ b < a + 1 + vs.length
      · have h' : a ≤ b ∧ b < a + (vs.length + 1) := by omega
        have e : b - a = (b - (a + 1)) + 1 := by omega
        rw [if_pos h, if_pos h', e, List.getElem?_cons_succ]
      · have h' : ¬(a ≤ b ∧ b < a + (vs.length + 1)) := by omega
        rw [if_neg h, if_neg h', if_neg hb]

theorem Memory.read_listFrom (vs : List (BitVec w)) (a b : Nat) :
    Memory.read (Memory.listFrom a vs) b = if a ≤ b then vs[b - a]? else none := by
  induction vs generalizing a with
  | nil => simp [Memory.listFrom]
  | cons v vs ih =>
    simp only [Memory.listFrom, Memory.read, ih]
    by_cases hb : b = a
    · subst hb
      simp
    · by_cases h : a + 1 ≤ b
      · have e : b - a = (b - (a + 1)) + 1 := by omega
        rw [if_neg hb, if_pos h, if_pos (by omega), e, List.getElem?_cons_succ]
      · rw [if_neg hb, if_neg h, if_neg (by omega)]

theorem Memory.read_ofList (vs : List (BitVec w)) (b : Nat) : Memory.read (Memory.ofList vs) b = vs[b]? := by
  simp [Memory.ofList, Memory.read_listFrom]

theorem Memory.contents_listFrom (vs : List (BitVec w)) (a : Nat) :
    (Memory.listFrom a vs).map Prod.snd = vs := by
  induction vs generalizing a with
  | nil => rfl
  | cons v vs ih => simp [Memory.listFrom, ih]

/-! ## The canonical form -/

theorem Memory.wfFrom_cons {size lo k : Nat} {u : BitVec w} {m : List (Nat × BitVec w)} :
    Memory.wfFrom size lo ((k, u) :: m) = true ↔ lo ≤ k ∧ k < size ∧ Memory.wfFrom size (k + 1) m = true := by
  simp [Memory.wfFrom, and_assoc]

theorem Memory.wfFrom_mono {size lo lo' : Nat} {m : List (Nat × BitVec w)}
    (h : Memory.wfFrom size lo m = true) (hlo : lo' ≤ lo) : Memory.wfFrom size lo' m = true := by
  cases m with
  | nil => rfl
  | cons c m =>
    obtain ⟨k, u⟩ := c
    rw [Memory.wfFrom_cons] at h ⊢
    exact ⟨by omega, h.2⟩

theorem Memory.wfFrom_write {size lo a : Nat} {m : List (Nat × BitVec w)} (v : BitVec w)
    (h : Memory.wfFrom size lo m = true) (hlo : lo ≤ a) (ha : a < size) :
    Memory.wfFrom size lo (Memory.write m a v) = true := by
  induction m generalizing lo with
  | nil => simp [Memory.write, Memory.wfFrom, hlo, ha]
  | cons c m ih =>
    obtain ⟨k, u⟩ := c
    rw [Memory.wfFrom_cons] at h
    simp only [Memory.write]
    split
    · simp only [Memory.wfFrom_cons]
      exact ⟨hlo, ha, by omega, h.2⟩
    · split
      · subst a
        rw [Memory.wfFrom_cons]
        exact ⟨hlo, ha, h.2.2⟩
      · rw [Memory.wfFrom_cons]
        exact ⟨h.1, h.2.1, ih h.2.2 (by omega)⟩

/-- A write keeps the canonical form. -/
theorem Memory.wf_write {size a : Nat} {m : List (Nat × BitVec w)} (v : BitVec w)
    (h : Memory.wf size m = true) (ha : a < size) : Memory.wf size (Memory.write m a v) = true :=
  Memory.wfFrom_write v h (Nat.zero_le a) ha

/-- A write of several elements keeps the canonical form. -/
theorem Memory.wf_writeList {size : Nat} (vs : List (BitVec w)) {m : List (Nat × BitVec w)} {a : Nat}
    (h : Memory.wf size m = true) (ha : a + vs.length ≤ size) :
    Memory.wf size (Memory.writeList m a vs) = true := by
  induction vs generalizing m a with
  | nil => exact h
  | cons v vs ih =>
    rw [List.length_cons] at ha
    exact ih (Memory.wf_write v h (by omega)) (by omega)

theorem Memory.wfFrom_listFrom {size : Nat} (vs : List (BitVec w)) (a : Nat) (ha : a + vs.length ≤ size) :
    Memory.wfFrom size a (Memory.listFrom a vs) = true := by
  induction vs generalizing a with
  | nil => rfl
  | cons v vs ih =>
    rw [List.length_cons] at ha
    rw [Memory.listFrom, Memory.wfFrom_cons]
    exact ⟨Nat.le_refl a, by omega, ih (a + 1) (by omega)⟩

/-- The array of a list is canonical. -/
theorem Memory.wf_ofList {size : Nat} (vs : List (BitVec w)) (h : vs.length ≤ size) :
    Memory.wf size (Memory.ofList vs) = true :=
  Memory.wfFrom_listFrom vs 0 (by omega)

/-- The empty array, which `RESET` leaves, is canonical. -/
theorem Memory.wf_nil (size : Nat) : Memory.wf size ([] : List (Nat × BitVec w)) = true := rfl

/-- Reset memory is canonical. -/
theorem State.reset_canonical :
    Memory.wf Config.blockBytes State.reset.BUF = true ∧ Memory.wf Config.scheduleWords State.reset.W = true :=
  ⟨rfl, rfl⟩

theorem Memory.read_below {size lo a : Nat} {m : List (Nat × BitVec w)}
    (h : Memory.wfFrom size lo m = true) (ha : a < lo) : Memory.read m a = none := by
  induction m generalizing lo with
  | nil => rfl
  | cons c m ih =>
    obtain ⟨k, u⟩ := c
    rw [Memory.wfFrom_cons] at h
    rw [Memory.read, if_neg (by omega), ih h.2.2 (by omega)]

/-- A canonical array holds nothing past its size. -/
theorem Memory.read_above {size lo a : Nat} {m : List (Nat × BitVec w)}
    (h : Memory.wfFrom size lo m = true) (ha : size ≤ a) : Memory.read m a = none := by
  induction m generalizing lo with
  | nil => rfl
  | cons c m ih =>
    obtain ⟨k, u⟩ := c
    rw [Memory.wfFrom_cons] at h
    rw [Memory.read, if_neg (by omega), ih h.2.2]

theorem Memory.ext_from {size lo : Nat} {m m' : List (Nat × BitVec w)}
    (h : Memory.wfFrom size lo m = true) (h' : Memory.wfFrom size lo m' = true)
    (hr : ∀ a, Memory.read m a = Memory.read m' a) : m = m' := by
  induction m generalizing lo m' with
  | nil =>
    cases m' with
    | nil => rfl
    | cons c m' =>
      obtain ⟨k, u⟩ := c
      have := hr k
      simp [Memory.read] at this
  | cons c m ih =>
    obtain ⟨k, u⟩ := c
    rw [Memory.wfFrom_cons] at h
    cases m' with
    | nil =>
      have := hr k
      simp [Memory.read] at this
    | cons c' m' =>
      obtain ⟨k', u'⟩ := c'
      rw [Memory.wfFrom_cons] at h'
      have hk := hr k
      have hk' := hr k'
      simp only [Memory.read, if_true] at hk hk'
      have e : k = k' := by
        by_contra hne
        rw [if_neg hne] at hk
        rw [if_neg (Ne.symm hne)] at hk'
        by_cases hlt : k < k'
        · rw [Memory.read_below h'.2.2 (by omega)] at hk
          cases hk
        · rw [Memory.read_below h.2.2 (by omega)] at hk'
          cases hk'
      subst e
      rw [if_pos rfl] at hk
      have hm : m = m' := by
        refine ih h.2.2 h'.2.2 fun a => ?_
        by_cases ha : a = k
        · subst ha
          rw [Memory.read_below h.2.2 (by omega), Memory.read_below h'.2.2 (by omega)]
        · have := hr a
          simpa only [Memory.read, if_neg ha] using this
      rw [hm, Option.some.inj hk]

/-- Canonical arrays with equal reads are equal. -/
theorem Memory.ext {size : Nat} {m m' : List (Nat × BitVec w)} (h : Memory.wf size m = true)
    (h' : Memory.wf size m' = true) (hr : ∀ a, Memory.read m a = Memory.read m' a) : m = m' :=
  Memory.ext_from h h' hr

end Sys2Proof.Machine
end

