-- ==== Sys2Proof/Laws/Exec.lean ====
section
/-! SUPPORT. What each operand form, each meaning and the step can answer, said once: later proofs cite
these and unfold nothing. -/

namespace Sys2Proof.Machine

/-! ## Operand forms -/

/-! What a read delivers: the value the element holds, or the free bits. -/

theorem bufByte_of_read {s : State} {a : Nat} {b : Byte} (h : Memory.read s.BUF a = some b) :
    bufByte s a = b := by simp [bufByte, h]

theorem bufByte_unwritten {s : State} {a : Nat} (h : Memory.read s.BUF a = none) :
    bufByte s a = Config.unwrittenBUF s.resets a := by simp [bufByte, h]

theorem schedWord_of_read {s : State} {j : Nat} {v : Word} (h : Memory.read s.W j = some v) :
    schedWord s j = v := by simp [schedWord, h]

theorem schedWord_unwritten {s : State} {j : Nat} (h : Memory.read s.W j = none) :
    schedWord s j = Config.unwrittenW s.resets j := by simp [schedWord, h]

theorem readS_of_some {s : State} {v : Regs8} (h : s.S = some v) : readS s = v := by simp [readS, h]

theorem readS_unwritten {s : State} (h : s.S = none) :
    readS s = Regs8.ofFn (Config.unwrittenS s.resets) := by simp [readS, h]

theorem readR_of_some {s : State} {v : Regs8} (h : s.R = some v) : readR s = v := by simp [readR, h]

theorem readR_unwritten {s : State} (h : s.R = none) :
    readR s = Regs8.ofFn (Config.unwrittenR s.resets) := by simp [readR, h]

theorem Regs8.get_ofFn (f : Nat → Word) {i : Nat} (h : i < 8) : (Regs8.ofFn f).get i = f i := by
  obtain rfl | rfl | rfl | rfl | rfl | rfl | rfl | rfl :
    i = 0 ∨ i = 1 ∨ i = 2 ∨ i = 3 ∨ i = 4 ∨ i = 5 ∨ i = 6 ∨ i = 7 := by omega
  all_goals rfl

theorem bufWord_of_reads {s : State} {a : Nat} {b0 b1 b2 b3 : Byte} (h0 : Memory.read s.BUF a = some b0)
    (h1 : Memory.read s.BUF (a + 1) = some b1) (h2 : Memory.read s.BUF (a + 2) = some b2)
    (h3 : Memory.read s.BUF (a + 3) = some b3) : bufWord s a = be32 b0 b1 b2 b3 := by
  simp [bufWord, bufByte, h0, h1, h2, h3]

theorem nextSchedWord_of_reads {s : State} {j : Nat} {w2 w7 w15 w16 : Word}
    (h2 : Memory.read s.W (j - 2) = some w2) (h7 : Memory.read s.W (j - 7) = some w7)
    (h15 : Memory.read s.W (j - 15) = some w15) (h16 : Memory.read s.W (j - 16) = some w16) :
    nextSchedWord s j = expandWord w2 w7 w15 w16 := by
  simp [nextSchedWord, schedWord, h2, h7, h15, h16]

theorem Memory.some_of_holdsBelow {w n a : Nat} {m : List (Nat × BitVec w)} (h : Memory.holdsBelow n m)
    (ha : a < n) : ∃ v, Memory.read m a = some v :=
  Option.isSome_iff_exists.mp (h a ha)

/-! ## Meanings: every way they answer with a next state -/

theorem execStart_next {s t : State} (h : execStart s = .next t) :
    (startEnabled s.PHASE = false ∧ t = s) ∨
      (startEnabled s.PHASE = true ∧ t = { s.accept with
        S := some romIV, LEN := 0, N := 0, T := 0, TAIL := .none, PHASE := .absorb }) := by
  unfold execStart at h
  split at h <;> cases h <;> simp_all

theorem execPush_next {b : Byte} {s t : State} (h : execPush b s = .next t) :
    (s.PHASE ≠ .absorb ∧ t = s) ∨
      (s.PHASE = .absorb ∧ s.N = 63 ∧ t = { s.accept with
        BUF := Memory.write s.BUF s.N.toNat b, LEN := s.LEN + 8, N := 0, T := 0, PHASE := .loadw }) ∨
      (s.PHASE = .absorb ∧ s.N ≠ 63 ∧ t = { s.accept with
        BUF := Memory.write s.BUF s.N.toNat b, LEN := s.LEN + 8, N := s.N + 1 }) := by
  unfold execPush at h
  split at h
  · split at h <;> cases h <;> simp_all
  · cases h
    simp_all

theorem execFinish_next {s t : State} (h : execFinish s = .next t) :
    (s.PHASE ≠ .absorb ∧ t = s) ∨ (s.PHASE = .absorb ∧ t = { s.accept with PHASE := .pad1, T := 0 }) := by
  unfold execFinish at h
  split at h <;> cases h <;> simp_all

theorem execRead_next {arg : BitVec 8} {s t : State} (h : execRead arg s = .next t) :
    (¬(s.PHASE = .done ∧ arg.toNat ≤ 31) ∧ t = s) ∨
      (s.PHASE = .done ∧ arg.toNat ≤ 31 ∧ t = s.respond (digestByte (readS s) arg.toNat)) := by
  unfold execRead at h
  split at h <;> cases h <;> simp_all

theorem execStat_next {s t : State} (h : execStat s = .next t) : t = s.respond (statusByte s.PHASE) := by
  cases h
  rfl

theorem execReset_next {s t : State} (h : execReset s = .next t) :
    t = { s with
      PHASE := .idle, TAIL := .none, N := 0, T := 0, LEN := 0, S := none, R := none, W := [], BUF := []
      resets := s.resets + 1 } := by
  cases h
  rfl

theorem execPad1_next {s t : State} (h : execPad1 s = .next t) :
    (s.PHASE ≠ .pad1 ∧ t = s) ∨
      (s.PHASE = .pad1 ∧ t = { s with
        BUF := Memory.writeList s.BUF s.N.toNat (pad1Bytes s.N.toNat s.LEN)
        TAIL := if s.N.toNat < Config.lengthAt then .last else .more
        N := 0, T := 0, PHASE := .loadw }) := by
  unfold execPad1 at h
  split at h <;> cases h <;> simp_all

theorem execPad2_next {s t : State} (h : execPad2 s = .next t) :
    (s.PHASE ≠ .pad2 ∧ t = s) ∨
      (s.PHASE = .pad2 ∧ t = { s with
        BUF := Memory.writeList s.BUF 0 (pad2Bytes s.LEN), TAIL := .last, T := 0, PHASE := .loadw }) := by
  unfold execPad2 at h
  split at h <;> cases h <;> simp_all

theorem execLdw_next {s t : State} (h : execLdw s = .next t) :
    (s.PHASE ≠ .loadw ∧ t = s) ∨
      (s.PHASE = .loadw ∧ s.T.toNat < 16 ∧
        t = afterLdw { s with W := Memory.write s.W s.T.toNat (bufWord s (4 * s.T.toNat)) }) := by
  unfold execLdw at h
  split at h
  · split at h <;> cases h
    exact .inr ⟨‹_›, ‹_›, rfl⟩
  · cases h
    exact .inl ⟨‹_›, rfl⟩

theorem execExp_next {s t : State} (h : execExp s = .next t) :
    (s.PHASE ≠ .expand ∧ t = s) ∨
      (s.PHASE = .expand ∧ 16 ≤ s.T.toNat ∧
        t = afterExp { s with W := Memory.write s.W s.T.toNat (nextSchedWord s s.T.toNat) }) := by
  unfold execExp at h
  split at h
  · split at h <;> cases h
    exact .inr ⟨‹_›, ‹_›, rfl⟩
  · cases h
    exact .inl ⟨‹_›, rfl⟩

theorem execInitw_next {s t : State} (h : execInitw s = .next t) :
    (s.PHASE ≠ .initw ∧ t = s) ∨
      (s.PHASE = .initw ∧ t = { s with R := some (readS s), T := 0, PHASE := .round }) := by
  unfold execInitw at h
  split at h <;> cases h <;> simp_all

theorem execRound_next {s t : State} (h : execRound s = .next t) :
    (s.PHASE ≠ .round ∧ t = s) ∨
      (s.PHASE = .round ∧ t = afterRound { s with
        R := some (roundRegs (readR s) (romK s.T.toNat) (schedWord s s.T.toNat)) }) := by
  unfold execRound at h
  split at h <;> cases h <;> simp_all

theorem execAcc_next {s t : State} (h : execAcc s = .next t) :
    (s.PHASE ≠ .accum ∧ t = s) ∨
      (s.PHASE = .accum ∧
        t = { s with S := some ((readS s).add (readR s)), T := 0, PHASE := phaseAfterAcc s.TAIL }) := by
  unfold execAcc at h
  split at h <;> cases h <;> simp_all

/-! Where a meaning faults: nowhere but at a sequencer position outside the table of R36. -/

/-- A fault is `LDW` or `EXP` at such a position (log entry 8). -/
theorem exec_fault {i : Instr} {s : State} {f : Fault} (h : exec i s = .fault f) :
    f = .badControl ∧
      ((i = .ldw ∧ s.PHASE = .loadw ∧ 16 ≤ s.T.toNat) ∨ (i = .exp ∧ s.PHASE = .expand ∧ s.T.toNat < 16)) := by
  cases i with
  | ldw =>
    simp only [exec, execLdw] at h
    split at h
    · split at h <;> cases h
      exact ⟨rfl, .inl ⟨rfl, ‹_›, by simp_all [Config.parsedWords]⟩⟩
    · cases h
  | exp =>
    simp only [exec, execExp] at h
    split at h
    · split at h <;> cases h
      exact ⟨rfl, .inr ⟨rfl, ‹_›, by simp_all [Config.parsedWords]⟩⟩
    · cases h
  | stat => cases h
  | reset => cases h
  | _ =>
    exfalso
    simp only [exec, execStart, execPush, execFinish, execRead, execPad1, execPad2, execInitw, execRound,
      execAcc] at h
    repeat' split at h
    all_goals cases h

/-! ## Selection and the step -/

/-- What a selector can select on each agent's turn (R87). -/
theorem State.selected_cases {s : State} {sel : Selector} (h : s.selected = some sel) :
    (∃ r, s.turnNow = .rst r ∧ sel = .rst r) ∨
      (s.turnNow = .engine ∧ sel = .uop (phaseCode s.PHASE)) ∨
      ∃ c rest, s.turnNow = .host ∧ s.cmds = c :: rest ∧ sel = .cmd c := by
  unfold State.selected at h
  split at h
  · rename_i r ht
    cases h
    exact .inl ⟨r, ht, rfl⟩
  · rename_i ht
    cases h
    exact .inr (.inl ⟨ht, rfl⟩)
  · rename_i ht
    cases hc : s.cmds with
    | nil => simp [hc] at h
    | cons c rest =>
      simp [hc] at h
      exact .inr (.inr ⟨c, rest, ht, rfl, h.symm⟩)
  · cases h

/-- Every way a step answers with a next state: an instruction runs, or the turn passes. -/
theorem step_next {s t : State} (h : step s = .next t) :
    (∃ sel i, s.selected = some sel ∧ decode sel = .ok i ∧ exec i s.endTurn = .next t) ∨
      (t = s.passTurn ∧ ∀ sel, s.selected = some sel →
        decode sel = .error .noEngineStep ∨ decode sel = .error .noEvent) := by
  unfold step at h
  split at h
  · rename_i hs
    cases h
    exact .inr ⟨rfl, fun sel hsel => by simp [hs] at hsel⟩
  · rename_i sel hs
    split at h
    · rename_i i hi
      exact .inl ⟨sel, i, hs, hi, h⟩
    · rename_i hd
      cases h
      exact .inr ⟨rfl, fun sel' hsel => by rw [hs] at hsel; cases hsel; exact .inl hd⟩
    · rename_i hd
      cases h
      exact .inr ⟨rfl, fun sel' hsel => by rw [hs] at hsel; cases hsel; exact .inr hd⟩
    · cases h
    · cases h

/-- The host withdraws the presented command: it leaves the port and nothing else happens (R169). -/
theorem step_withdraw {s : State} (h : s.turnNow = .withdraw) : step s = .next s.endTurn.accept := by
  simp [step, State.selected, State.passTurn, h]

/-- The reset bit 1 takes the reset step, whatever is on the port (R79, R190 (a)). -/
theorem step_rst_one {s : State} (h : s.turnNow = .rst 1) : step s = exec .reset s.endTurn := by
  simp [step, State.selected, h, decode, decodeRst]

/-- The reset bit 0 is no event: the turn passes (R79). -/
theorem step_rst_zero {s : State} (h : s.turnNow = .rst 0) : step s = .next s.endTurn := by
  simp [step, State.selected, State.passTurn, h, decode, decodeRst]

/-- The host's turn with nothing presented passes. -/
theorem step_host_nothing {s : State} (h : s.turnNow = .host) (hc : s.cmds = []) :
    step s = .next s.endTurn := by
  simp [step, State.selected, State.passTurn, h, hc]

/-- A passed turn leaves the engine as it is. -/
theorem State.passTurn_sameEngine (s : State) : s.SameEngine s.passTurn := by
  unfold State.passTurn
  split <;> exact ⟨rfl, rfl, rfl, rfl, rfl, rfl, rfl, rfl, rfl, rfl⟩

/-! ## Lengths of what the padder writes -/

@[simp] theorem be64_length (v : BitVec 64) : (be64 v).length = 8 := rfl

@[simp] theorem pad2Bytes_length (len : BitVec 64) : (pad2Bytes len).length = 64 := rfl

theorem pad1Bytes_length {n : Nat} (len : BitVec 64) (hn : n < 64) : n + (pad1Bytes n len).length = 64 := by
  unfold pad1Bytes
  simp only [Config.lengthAt, Config.blockBytes]
  split <;> simp <;> omega

end Sys2Proof.Machine
end

