-- ==== Sys2Proof/Laws/Checked.lean ====
section
/-! SUPPORT. What `checkedExec` and `checkedStep` answer, said once: the outcome of `exec` and `step`, or the
fault `NoValue` at an element that is read and holds no value. -/

namespace Sys2Proof.Machine

@[simp] theorem liftFault_next {o : Host.Outcome State Fault Refusal} {t : State} :
    liftFault o = .next t ↔ o = .next t := by
  cases o with
  | next s => simp [liftFault]
  | fault f => cases f; simp [liftFault]
  | refused r => simp [liftFault]

@[simp] theorem liftFault_noValue {o : Host.Outcome State Fault Refusal} {x : Space} {i : Nat} :
    liftFault o ≠ .fault (.noValue x i) := by
  cases o with
  | next s => simp [liftFault]
  | fault f => cases f; simp [liftFault]
  | refused r => simp [liftFault]

theorem mem_noValueReads {i : Instr} {s : State} {e : Space × Nat} :
    e ∈ noValueReads i s ↔ e ∈ elementsRead i s ∧ s.holds e = false := by
  simp [noValueReads]

theorem checkedExec_of_nil {i : Instr} {s : State} (h : noValueReads i s = []) :
    checkedExec i s = liftFault (exec i s) := by
  simp [checkedExec, h]

/-- The fault names an element that the instruction reads and that holds no value. -/
theorem checkedExec_of_ne_nil {i : Instr} {s : State} (h : noValueReads i s ≠ []) :
    ∃ e ∈ noValueReads i s, checkedExec i s = .fault (.noValue e.1 e.2) := by
  cases hl : noValueReads i s with
  | nil => exact absurd hl h
  | cons e es => exact ⟨e, List.mem_cons_self, by simp [checkedExec, hl]⟩

/-- Where the selected instruction reads no element without a value, the two steps agree. -/
theorem checkedStep_of_nil {s : State}
    (h : ∀ sel i, s.selected = some sel → decode sel = .ok i → noValueReads i s.endTurn = []) :
    checkedStep s = liftFault (step s) := by
  unfold checkedStep
  split
  · rfl
  · rename_i sel hs
    split
    · rename_i i hi
      rw [checkedExec_of_nil (h sel i hs hi)]
      simp [step, hs, hi]
    · rfl

end Sys2Proof.Machine
end

