-- ==== Sys2Proof/Laws/PerInstr.lean ====
section
/-! SUPPORT. Per instruction: the selector the encoder writes has the width, and under the mask the match
value, of the instruction's row of the opcode table (spec 30_encoding.md rules R75, R78, R79, R87). -/

namespace Sys2Proof.Laws

/-- Width, mask and match of an instruction's row of the opcode table. -/
def tableRow : Instr → Nat × Nat × Nat
  | .start => (12, 0xf00, 0x100)
  | .push _ => (12, 0xf00, 0x200)
  | .finish => (12, 0xf00, 0x300)
  | .read _ => (12, 0xfe0, 0x400)
  | .stat => (12, 0xf00, 0x500)
  | .reset => (1, 0x1, 0x1)
  | .pad1 => (4, 0xf, 0x2)
  | .pad2 => (4, 0xf, 0x3)
  | .ldw => (4, 0xf, 0x4)
  | .exp => (4, 0xf, 0x5)
  | .initw => (4, 0xf, 0x6)
  | .round => (4, 0xf, 0x7)
  | .acc => (4, 0xf, 0x8)

/-- Width and bits of a selector. -/
def selectorBits : Selector → Nat × Nat
  | .cmd c => (12, c.toNat)
  | .uop p => (4, p.toNat)
  | .rst r => (1, r.toNat)

/-- The encoded instruction matches its row. -/
def EncodingMatchesItsRow.Statement (i : Instr) : Prop :=
  i.wellFormed = true →
    (selectorBits (encode i)).1 = (tableRow i).1 ∧
    (selectorBits (encode i)).2 &&& (tableRow i).2.1 = (tableRow i).2.2

theorem EncodingMatchesItsRow.start : EncodingMatchesItsRow.Statement .start := fun _ => ⟨rfl, rfl⟩

theorem EncodingMatchesItsRow.push (b : Byte) : EncodingMatchesItsRow.Statement (.push b) := by
  intro _
  refine ⟨rfl, ?_⟩
  revert b
  decide +kernel

theorem EncodingMatchesItsRow.finish : EncodingMatchesItsRow.Statement .finish := fun _ => ⟨rfl, rfl⟩

theorem EncodingMatchesItsRow.read (arg : BitVec 8) : EncodingMatchesItsRow.Statement (.read arg) := by
  intro h
  refine ⟨rfl, ?_⟩
  revert arg
  simp only [Instr.wellFormed]
  decide +kernel

theorem EncodingMatchesItsRow.stat : EncodingMatchesItsRow.Statement .stat := fun _ => ⟨rfl, rfl⟩

theorem EncodingMatchesItsRow.reset : EncodingMatchesItsRow.Statement .reset := fun _ => ⟨rfl, rfl⟩

theorem EncodingMatchesItsRow.pad1 : EncodingMatchesItsRow.Statement .pad1 := fun _ => ⟨rfl, rfl⟩

theorem EncodingMatchesItsRow.pad2 : EncodingMatchesItsRow.Statement .pad2 := fun _ => ⟨rfl, rfl⟩

theorem EncodingMatchesItsRow.ldw : EncodingMatchesItsRow.Statement .ldw := fun _ => ⟨rfl, rfl⟩

theorem EncodingMatchesItsRow.exp : EncodingMatchesItsRow.Statement .exp := fun _ => ⟨rfl, rfl⟩

theorem EncodingMatchesItsRow.initw : EncodingMatchesItsRow.Statement .initw := fun _ => ⟨rfl, rfl⟩

theorem EncodingMatchesItsRow.round : EncodingMatchesItsRow.Statement .round := fun _ => ⟨rfl, rfl⟩

theorem EncodingMatchesItsRow.acc : EncodingMatchesItsRow.Statement .acc := fun _ => ⟨rfl, rfl⟩

end Sys2Proof.Laws
end

