-- ==== Sys2Proof/Tests/Slice0.lean ====
section
/-! SUPPORT. The model's own tests: expected values from spec 95_test_vectors.md and the rules' own worked
examples, and for each statement with hypotheses a witness that meets them. -/

namespace Sys2Proof.Tests

open Sys2Proof.Machine

/-! ## Helpers -/

/-- The next state, where there is one. -/
def after (o : Host.Outcome State Fault Refusal) : Option State :=
  match o with
  | .next s => some s
  | .fault _ => none
  | .refused _ => none

/-- A state at phase `p` and index `t`, `S` and `R` holding `IV`. -/
def atPos (p : Phase) (t : BitVec 6) : State :=
  { State.reset with PHASE := p, T := t, S := some romIV, R := some romIV }

/-- 64 zero elements. -/
def zeros64 (w : Nat) : List (Nat × BitVec w) := Memory.ofList (List.replicate 64 0)

/-- `atPos` with every element of `BUF` and `W` zero. -/
def fullAt (p : Phase) (t : BitVec 6) : State := { atPos p t with BUF := zeros64 8, W := zeros64 32 }

/-- `S` after the block of `abc` (vector S2). -/
def abcState : Regs8 :=
  ⟨0xba7816bf, 0x8f01cfea, 0x414140de, 0x5dae2223, 0xb00361a3, 0x96177a9c, 0xb410ff61, 0xf20015ad⟩

/-- `R` after round 63 of the block of `abc` (95_test_vectors.md section 3). -/
def abcRegs : Regs8 :=
  ⟨0x506e3058, 0xd39a2165, 0x04d24d6c, 0xb85e2ce9, 0x5ef50f24, 0xfb121210, 0x948d25b6, 0x961f4894⟩

/-! ## Well-formedness and decoding -/

/-- R76: `arg[7:5]` of `READ` not zero is refused, each of its three bits. -/
theorem test_wellFormed_refuses_read_beyond_31 :
    (Instr.read 0x20).wellFormed = false ∧ (Instr.read 0x40).wellFormed = false ∧
      (Instr.read 0x80).wellFormed = false ∧ (Instr.read 0x1f).wellFormed = true := by decide

/-- One word of each `CMD` row (R75; vectors V16 to V20). -/
theorem test_decode_command_rows :
    decode (.cmd 0b000111111111#12) = .ok .start ∧ decode (.cmd 0b001010101011#12) = .ok (.push 0xab) ∧
      decode (.cmd 0b001110100101#12) = .ok .finish ∧ decode (.cmd 0b010000011111#12) = .ok (.read 31) ∧
      decode (.cmd 0b010111111111#12) = .ok .stat := ⟨rfl, rfl, rfl, rfl, rfl⟩

/-- Reserved words (R82; vectors V13 to V15). -/
theorem test_decode_reserved_words :
    decode (.cmd 0x000) = .error .reservedCommand ∧ decode (.cmd 0x420) = .error .reservedCommand ∧
      decode (.cmd 0x600) = .error .reservedCommand ∧ decode (.cmd 0xfff) = .error .reservedCommand :=
  ⟨rfl, rfl, rfl, rfl⟩

/-- The `UOP` and `RST` rows (R78, R79). -/
theorem test_decode_uop_and_rst_rows :
    decode (.uop 0b0010#4) = .ok .pad1 ∧ decode (.uop 0b0011#4) = .ok .pad2 ∧
      decode (.uop 0b0100#4) = .ok .ldw ∧ decode (.uop 0b0101#4) = .ok .exp ∧
      decode (.uop 0b0110#4) = .ok .initw ∧ decode (.uop 0b0111#4) = .ok .round ∧
      decode (.uop 0b1000#4) = .ok .acc ∧ decode (.uop 0b1001#4) = .error .noEngineStep ∧
      decode (.uop 0b1010#4) = .error .reservedPhase ∧ decode (.rst 0b1#1) = .ok .reset ∧
      decode (.rst 0b0#1) = .error .noEvent :=
  ⟨rfl, rfl, rfl, rfl, rfl, rfl, rfl, rfl, rfl, rfl, rfl⟩

/-- Every row of the opcode table, by the table's own numbering. -/
theorem test_decodeTableWord_rows :
    [(16, 0x100), (16, 0x261), (16, 0x300), (16, 0x41f), (16, 0x500), (8, 1), (8, 2), (8, 3), (8, 4), (8, 5),
      (8, 6), (8, 7), (8, 8), (16, 0x420), (8, 9)].map (fun x => decodeTableWord x.1 x.2)
      = [some .start, some (.push 0x61), some .finish, some (.read 31), some .stat, some .reset, some .pad1,
        some .pad2, some .ldw, some .exp, some .initw, some .round, some .acc, none, none] := by decide

/-- Each row's word, made ready at reset, is taken by the very next step (`withFetchWord`). -/
theorem test_fetched_rows_run :
    [(16, 0x100), (16, 0x261), (16, 0x300), (16, 0x41f), (16, 0x500), (8, 1), (8, 2), (8, 3), (8, 4), (8, 5),
      (8, 6), (8, 7), (8, 8)].all (fun x => (after (step (State.reset.withFetchWord x.1 x.2))).isSome)
      = true := by decide +kernel

/-! ## Word functions (95_test_vectors.md section 2) -/

theorem test_word_functions :
    rotr 0x12345678 7 = 0xf02468ac ∧ shr 0x12345678 3 = 0x02468acf ∧ bsig0 0x12345678 = 0x66146474 ∧
      bsig1 0x12345678 = 0x3561abda ∧ ssig0 0x61626380 = 0x940e90ef ∧ ssig1 0x61626380 = 0x7da86405 := by
  decide

theorem test_ch_maj_add :
    Ch 0x510e527f 0x9b05688c 0x1f83d9ab = 0x1f85c98c ∧ Maj 0x6a09e667 0xbb67ae85 0x3c6ef372 = 0x3a6fe667 ∧
      add32 0xffffffff 1 = 0 ∧ be32 0x61 0x62 0x63 0x80 = 0x61626380 ∧
      bytes32 0xba7816bf = [0xba, 0x78, 0x16, 0xbf] ∧ be64 448 = [0, 0, 0, 0, 0, 0, 1, 0xc0] := by decide

/-! ## One step of each instruction -/

/-- R164 and vector V12: in `DONE`, `START` puts `IV` in `S` and opens the message. -/
theorem test_start_in_done :
    (after (exec .start { atPos .done 0 with S := some abcState, LEN := 24, TAIL := .last })).map
      (fun s => (s.PHASE, s.TAIL, s.LEN, s.S.map (Regs8.get · 0))) = some (.absorb, .none, 0, some 0x6a09e667) := by
  decide

/-- Vector V7: `START` in `ROUND` waits, still presented. -/
theorem test_start_waits_when_busy :
    (after (exec .start { atPos .round 40 with cmds := [0x100] })).map (fun s => (s.PHASE, s.T, s.cmds))
      = some (.round, 40, [0x100]) := by decide

/-- Vector V20: the 64th byte. -/
theorem test_push_64th_byte :
    (after (exec (.push 0xab) { atPos .absorb 0 with N := 63, LEN := 504, cmds := [0x2ab] })).map
      (fun s => (Memory.read s.BUF 63, s.LEN, s.N, s.PHASE, s.cmds)) = some (some 0xab, 512, 0, .loadw, []) := by
  decide

/-- Vector V21: the first byte. -/
theorem test_push_first_byte :
    (after (exec (.push 0xab) (atPos .absorb 0))).map (fun s => (s.BUF, s.LEN, s.N, s.PHASE))
      = some ([(0, 0xab)], 8, 1, .absorb) := by decide

/-- R166: `FINISH` in `ABSORB`. -/
theorem test_finish_in_absorb :
    (after (exec .finish { atPos .absorb 0 with N := 3, LEN := 24 })).map (fun s => (s.PHASE, s.N, s.LEN))
      = some (.pad1, 3, 24) := by decide

/-- Vector V3: `FINISH` after reset is not accepted. -/
theorem test_finish_waits_in_idle :
    (after (exec .finish { State.reset with cmds := [0x300] })).map (fun s => (s.PHASE, s.cmds))
      = some (.idle, [0x300]) := by decide

/-- Program P2: `READ 31` of the digest of `abc` is 0xad, twice the same (vector V11). -/
theorem test_read_31_twice :
    (after (exec (.read 31) { atPos .done 0 with S := some abcState, resp := [0xad] })).map State.resp
      = some [0xad, 0xad] := by decide

/-- Vector V5: `READ` in `ABSORB` is not accepted. -/
theorem test_read_waits_in_absorb :
    (after (exec (.read 0) { atPos .absorb 0 with cmds := [0x400] })).map (fun s => (s.resp, s.cmds))
      = some ([], [0x400]) := by decide

/-- Vector V8: `STAT` in `ROUND`. -/
theorem test_stat_in_round : (after (exec .stat (atPos .round 40))).map State.resp = some [0x72] := by decide

/-- R168: `STAT` in `DONE`. -/
theorem test_stat_in_done : (after (exec .stat (atPos .done 0))).map State.resp = some [0x94] := by decide

/-- Vector V9: `RESET` in `ROUND`, with a command presented. -/
theorem test_reset_in_round :
    (after (step { fullAt .round 40 with turns := [.rst 1], cmds := [0x261] })).map
      (fun s => (s.PHASE, s.T, s.S.isNone && s.BUF.isEmpty, s.cmds, s.resets)) = some (.idle, 0, true, [0x261], 1) := by decide

/-- R79: the reset bit 0 is no event, in `ROUND` with a command presented. -/
theorem test_reset_bit_zero :
    (after (step { fullAt .round 40 with turns := [.rst 0], cmds := [0x261] })).map
      (fun s => (s.PHASE, s.T, s.S.isSome && s.turns.isEmpty, s.cmds, s.resets)) = some (.round, 40, true, [0x261], 0) := by
  decide

/-- R115, `N = 3`, `LEN = 0x18`: the block of `abc`. -/
theorem test_pad1_abc :
    (after (exec .pad1 { atPos .pad1 0 with N := 3, LEN := 24, BUF := [(0, 0x61), (1, 0x62), (2, 0x63)] })).map
      (fun s => (Memory.contents s.BUF == [0x61, 0x62, 0x63, 0x80] ++ List.replicate 59 0 ++ [0x18], s.TAIL, s.PHASE))
      = some (true, .last, .loadw) := by decide

/-- R115, `N = 56`, the smallest that needs a second block: the marker at 56, zeros to 63. -/
theorem test_pad1_56 :
    (after (exec .pad1 { atPos .pad1 0 with N := 56, LEN := 448 })).map
      (fun s => (s.BUF, s.TAIL, s.N))
      = some ([(56, 0x80), (57, 0), (58, 0), (59, 0), (60, 0), (61, 0), (62, 0), (63, 0)], .more, 0) := by decide

/-- R116: the second block of a 56-byte message. -/
theorem test_pad2_448 :
    (after (exec .pad2 { atPos .pad2 0 with TAIL := .more, LEN := 448 })).map
      (fun s => (Memory.contents s.BUF == List.replicate 62 0 ++ [0x01, 0xc0], s.TAIL, s.PHASE))
      = some (true, .last, .loadw) := by decide

/-- R127, `T = 0`: the first word of the block of `abc`. -/
theorem test_ldw_first :
    (after (exec .ldw { atPos .loadw 0 with BUF := [(0, 0x61), (1, 0x62), (2, 0x63), (3, 0x80)] })).map
      (fun s => (s.W, s.T, s.PHASE)) = some ([(0, 0x61626380)], 1, .loadw) := by decide

/-- R127, `T = 15`: the last word, from bytes 60 to 63. -/
theorem test_ldw_last :
    (after (exec .ldw { atPos .loadw 15 with BUF := [(60, 0), (61, 0), (62, 0), (63, 0x18)] })).map
      (fun s => (s.W, s.T, s.PHASE)) = some ([(15, 0x18)], 16, .expand) := by decide

/-- R128 for the block of `abc` at `T = 17`: `W[17] = ssig1(W[15]) = 0x000f0000`. -/
theorem test_exp_17 :
    (after (exec .exp { atPos .expand 17 with W := [(1, 0), (2, 0), (10, 0), (15, 0x18)] })).map
      (fun s => (Memory.read s.W 17, s.T, s.PHASE)) = some (some 0x000f0000, 18, .expand) := by decide

/-- R128 for the block of 64 bytes `ff` at `T = 16`: three wrapping additions give 0x203ffffc. -/
theorem test_exp_wraps :
    (after (exec .exp { atPos .expand 16 with
      W := [(0, 0xffffffff), (1, 0xffffffff), (9, 0xffffffff), (14, 0xffffffff)] })).map
      (fun s => Memory.read s.W 16) = some (some 0x203ffffc) := by decide

/-- R142. -/
theorem test_initw_copies :
    (after (exec .initw { atPos .initw 0 with S := some abcState, R := none })).map (fun s => (s.R, s.T, s.PHASE))
      = some (some abcState, 0, .round) := by decide

/-- R143, round 0 of the block of `abc`. -/
theorem test_round_0 :
    (after (exec .round { atPos .round 0 with W := [(0, 0x61626380)] })).map (fun s => (s.R, s.T, s.PHASE))
      = some (some ⟨0x5d6aebcd, 0x6a09e667, 0xbb67ae85, 0x3c6ef372, 0xfa2a4622, 0x510e527f, 0x9b05688c, 0x1f83d9ab⟩,
        1, .round) := by decide

/-- R143, round 63 of the block of `abc`. -/
theorem test_round_63 :
    (after (exec .round { atPos .round 63 with
      W := [(63, 0x12b1edeb)]
      R := some ⟨0xd39a2165, 0x04d24d6c, 0xb85e2ce9, 0xb6ae8fff, 0xfb121210, 0x948d25b6, 0x961f4894, 0xb21bad3d⟩ })).map
      (fun s => (s.R, s.T, s.PHASE)) = some (some abcRegs, 0, .accum) := by decide

/-- R144 for the block of `abc`, `TAIL = LAST`. -/
theorem test_acc_last :
    (after (exec .acc { atPos .accum 0 with R := some abcRegs, TAIL := .last })).map (fun s => (s.S, s.PHASE))
      = some (some abcState, .done) := by decide

/-- R144 with `TAIL = MORE`. -/
theorem test_acc_more :
    (after (exec .acc { atPos .accum 0 with TAIL := .more })).map (fun s => (s.PHASE, s.TAIL))
      = some (.pad2, .more) := by decide

/-! ## Witnesses: for each statement with hypotheses, values that meet them -/

theorem witness_DecodeOfEncode : (Instr.read 31).wellFormed = true ∧ (Instr.push 255).wellFormed = true := by
  decide

theorem witness_ReservedWords :
    ({ atPos .absorb 0 with cmds := [0x43f] } : State).turnNow = .host ∧
      decode (.cmd 0x43f) = .error .reservedCommand ∧
      ({ fullAt .round 0 with cmds := [0x43f] } : State).turnNow ≠ .withdraw ∧
      (after (step { fullAt .round 0 with cmds := [0x43f] })).isSome = true := by decide

theorem witness_StepRuns :
    ({ atPos .round 0 with turns := [.rst 1] } : State).turnNow = .rst 1 ∧ decode (.rst 1) = .ok .reset ∧
      (atPos .round 0).turnNow = .engine ∧ decode (.uop (phaseCode .round)) = .ok .round ∧
      ({ atPos .round 0 with turns := [.host], cmds := [0x5ff] } : State).turnNow = .host ∧
      decode (.cmd 0x5ff) = .ok .stat := ⟨rfl, rfl, rfl, rfl, rfl, rfl⟩

/-- The three turns of `StepRunsTheDecodedInstruction` on which nothing runs, and what becomes of the port. -/
theorem witness_TurnsWithoutAStep :
    ({ atPos .done 0 with turns := [.withdraw], cmds := [0x261, 0x100] } : State).turnNow = .withdraw ∧
      (after (step { atPos .done 0 with turns := [.withdraw], cmds := [0x261, 0x100] })).map
        (fun s => (s.cmds, s.PHASE)) = some ([0x100], .done) ∧
      ({ fullAt .round 0 with turns := [.host] } : State).turnNow = .host ∧
      (after (step { fullAt .round 0 with turns := [.host] })).map (fun s => (s.cmds, s.turns, s.T))
        = some ([], [], 0) ∧
      ({ fullAt .round 0 with turns := [.rst 0], cmds := [0x500] } : State).turnNow = .rst 0 := by decide

theorem witness_PhaseSelects :
    (atPos .accum 0).turnNow = .engine ∧ ({ atPos .done 0 with turns := [.engine] } : State).turnNow = .engine ∧
      10 ≤ (10#4).toNat ∧ 10 ≤ (15#4).toNat := by decide

theorem witness_ResetWins :
    ({ fullAt .done 0 with turns := [.rst 1], cmds := [0x100] } : State).turnNow = .rst 1 ∧
      ({ fullAt .round 63 with turns := [.rst 0], cmds := [0x100] } : State).turnNow = .rst 0 := ⟨rfl, rfl⟩

theorem witness_CommandPhases :
    startEnabled (atPos .idle 0).PHASE = true ∧ (atPos .absorb 0).PHASE = .absorb ∧ (atPos .done 0).PHASE = .done ∧
      (31#8).toNat ≤ 31 ∧ (atPos .done 0).S = some romIV := by decide

theorem witness_CommandsNotEnabledWait :
    flagBusy (atPos .pad1 0).PHASE = true ∧ (atPos .idle 0).PHASE ≠ .absorb ∧ (atPos .absorb 0).PHASE ≠ .done ∧
      31 < (32#8).toNat := by decide

/-- Both clauses of `PushFrame`: the last byte of `BUF` in `ABSORB`, and a phase in which nothing is
stored. -/
theorem witness_PushFrame :
    (after (exec (.push 1) { atPos .absorb 0 with N := 63 })).isSome = true ∧ (62 : Nat) ≠ (63#6).toNat ∧
      (after (exec (.push 1) (atPos .idle 0))).isSome = true := by decide

theorem witness_StoringNothingCommands :
    (after (exec .start (atPos .idle 0))).isSome = true ∧ (after (exec .finish (atPos .absorb 0))).isSome = true ∧
      (after (exec (.read 0) (atPos .done 0))).isSome = true ∧ (after (exec .stat (atPos .accum 0))).isSome = true := by
  decide

theorem witness_ReadsRepeat :
    ((after (exec (.read 31) (atPos .done 0))).bind (fun t => after (exec (.read 31) t))).isSome = true ∧
      ((after (exec .start (atPos .done 0))).bind (fun t => after (exec .start t))).isSome = true := by decide

/-- `PAD1` at the boundary of its two cases, and `PAD2`. -/
theorem witness_Padder :
    ({ atPos .pad1 0 with N := 55 } : State).N.toNat ≤ 55 ∧ 56 ≤ ({ atPos .pad1 0 with N := 56 } : State).N.toNat ∧
      (atPos .pad1 0).PHASE = .pad1 ∧ (atPos .pad2 0).PHASE = .pad2 := by decide

theorem witness_Ldw :
    (fullAt .loadw 15).PHASE = .loadw ∧ (fullAt .loadw 15).T.toNat ≤ 15 ∧
      Memory.read (fullAt .loadw 15).BUF 60 = some 0 ∧ Memory.read (fullAt .loadw 15).BUF 61 = some 0 ∧
      Memory.read (fullAt .loadw 15).BUF 62 = some 0 ∧ Memory.read (fullAt .loadw 15).BUF 63 = some 0 := by decide

theorem witness_Exp :
    (fullAt .expand 16).PHASE = .expand ∧ 16 ≤ (fullAt .expand 16).T.toNat ∧
      Memory.read (fullAt .expand 16).W 14 = some 0 ∧ Memory.read (fullAt .expand 16).W 9 = some 0 ∧
      Memory.read (fullAt .expand 16).W 1 = some 0 ∧ Memory.read (fullAt .expand 16).W 0 = some 0 := by decide

theorem witness_Compressor :
    (atPos .initw 0).PHASE = .initw ∧ (atPos .initw 0).S = some romIV ∧ (fullAt .round 63).PHASE = .round ∧
      (fullAt .round 63).R = some romIV ∧ Memory.read (fullAt .round 63).W 63 = some 0 ∧
      (atPos .accum 0).PHASE = .accum ∧ (atPos .accum 0).R = some romIV := by decide

theorem witness_MicroOperationsOutside :
    microPhase .ldw = some .loadw ∧ (atPos .expand 16).PHASE ≠ .loadw ∧ microPhase .acc = some .accum ∧
      (atPos .done 0).PHASE ≠ .accum := by decide

theorem witness_MicroOperationFrames :
    [(Instr.pad1, Phase.pad1, 0), (.pad2, .pad2, 0), (.ldw, .loadw, 15), (.exp, .expand, 63), (.initw, .initw, 0),
      (.round, .round, 63), (.acc, .accum, 0)].all
      (fun x => isMicroOperation x.1 && (after (exec x.1 (fullAt x.2.1 x.2.2))).isSome) = true := by decide +kernel

/-- `ReadsOfUnwrittenStorageRunWithFreeBits`: a state for each clause on an element that holds no value, and
one of each instruction's position at its bound. -/
theorem witness_ReadsOfUnwrittenStorage :
    ({ atPos .done 0 with S := none } : State).S = none ∧ Memory.read (atPos .loadw 15).BUF 63 = none ∧
      Memory.read (atPos .expand 16).W 0 = none ∧ ({ atPos .initw 0 with S := none } : State).S = none ∧
      ({ atPos .round 0 with R := none } : State).R = none ∧ (atPos .round 63).R.isSome = true ∧
      Memory.read (atPos .round 63).W 63 = none ∧ ({ atPos .accum 0 with S := none } : State).S = none ∧
      (atPos .accum 0).S.isSome = true ∧ ({ atPos .accum 0 with R := none } : State).R = none ∧
      Memory.read (fullAt .loadw 15).BUF 63 = some 0 ∧ Memory.read (fullAt .round 63).W 63 = some 0 := by decide

/-- `StepsFromTheInvariantNeverFault`, `RunsFromResetNeverFault`: `noValueReads` tells the two cases apart, for
each of the six instructions that read storage. -/
theorem witness_NoValueReads :
    [(Instr.read 31, Phase.done, 0), (.ldw, .loadw, 15), (.exp, .expand, 63), (.initw, .initw, 0),
      (.round, .round, 63), (.acc, .accum, 0)].all (fun x =>
        (noValueReads x.1 (fullAt x.2.1 x.2.2)).isEmpty &&
          !(noValueReads x.1 { atPos x.2.1 x.2.2 with S := none, R := none }).isEmpty) = true := by
  decide +kernel

/-- R43: `INITW` with `S` absent, `READ 31`, and `EXP` at 16 with only `W[0]` absent, in the checked step; and
`INITW` with `S` there runs. -/
theorem test_checked_no_value :
    checkedExec .initw { atPos .initw 0 with S := none } = .fault (.noValue .S 0) ∧
      checkedExec (.read 31) { atPos .done 0 with S := none } = .fault (.noValue .S 7) ∧
      checkedExec .exp { atPos .expand 16 with W := [(1, 0), (9, 0), (14, 0)] } = .fault (.noValue .W 0) ∧
      checkedExec .initw (atPos .initw 0)
        = .next { atPos .round 0 with R := some romIV } := ⟨rfl, rfl, rfl, rfl⟩

/-- `EXP` at 16 with only `W[0]` absent reads one element without a value and runs. -/
theorem test_exp_reads_unwritten :
    noValueReads .exp { atPos .expand 16 with W := [(1, 0), (9, 0), (14, 0)] } = [(.W, 0)] ∧
      (after (exec .exp { atPos .expand 16 with W := [(1, 0), (9, 0), (14, 0)] })).map (fun s => (s.T, s.PHASE))
        = some (17, .expand) := by decide

theorem witness_PositionsOutside :
    16 ≤ (atPos .loadw 16).T.toNat ∧ (atPos .loadw 16).PHASE = .loadw ∧ (atPos .expand 15).T.toNat ≤ 15 ∧
      (atPos .expand 15).PHASE = .expand := by decide

/-- Every element of `zeros64` holds a value. -/
theorem zeros64_holds (w n : Nat) (h : n ≤ 64) : Memory.holdsBelow n (zeros64 w) := by
  intro a ha
  rw [zeros64, Memory.read_ofList, List.getElem?_replicate, if_pos (by omega)]
  rfl

/-- A state of the invariant in a busy phase. -/
theorem fullAt_round_inv : (fullAt .round 63).Inv where
  bufCanonical := Memory.wf_ofList _ (by simp)
  wCanonical := Memory.wf_ofList _ (by simp)
  index := trivial
  tail := trivial
  fill := rfl
  wholeBytes := rfl
  fullBlock := fun _ _ _ => rfl
  running := fun _ => rfl
  storage := ⟨zeros64_holds 32 64 (Nat.le_refl 64), rfl⟩

/-- A state of the invariant in `ABSORB`, whatever the host presents and whoever moves. -/
theorem atPos_absorb_inv (cmds : List (BitVec 12)) (turns : List Turn) :
    State.Inv { atPos .absorb 0 with cmds := cmds, turns := turns } where
  bufCanonical := rfl
  wCanonical := rfl
  index := rfl
  tail := rfl
  fill := by simp [fillFits, atPos, State.reset]
  wholeBytes := rfl
  fullBlock := fun h => Bool.noConfusion h
  running := fun _ => rfl
  storage := fun a ha => absurd ha (Nat.not_lt_zero a)

/-- `EveryStepKeepsTheInvariant`, `StepsFromTheInvariantNeverFault`: a busy state and an idle host. -/
theorem witness_Invariant :
    (fullAt .round 63).Inv ∧ (after (step (fullAt .round 63))).isSome = true ∧
      State.Inv { atPos .absorb 0 with cmds := [0x000], turns := [] } ∧
      decode (.cmd 0x000) = .error .reservedCommand :=
  ⟨fullAt_round_inv, by decide, atPos_absorb_inv _ _, rfl⟩

/-- `ReachableStatesSatisfyRule38`, `RunsFromResetNeverFault`: the reset state, and the state after
`START`. -/
theorem witness_Reachable :
    Reachable State.reset ∧
      Reachable { State.reset with S := some romIV, PHASE := .absorb } :=
  ⟨Reachable.reset [] [] [],
    Reachable.step (Reachable.reset [0x100] [] []) (by rfl)⟩

theorem witness_HostAndEngine :
    flagBusy (atPos .pad1 0).PHASE = true ∧ isMicroOperation .finish = false ∧
      flagBusy (atPos .done 0).PHASE = false ∧ isMicroOperation .acc = true := by decide

/-- `SequencerFollowsTheTable`, `OnlyResetAbortsABusyPhase`: an engine turn and a host turn in a busy phase,
and a step in `DONE`. -/
theorem witness_Sequencer :
    (after (step (fullAt .round 63))).isSome = true ∧ (fullAt .round 63).turnNow = .engine ∧
      flagBusy (fullAt .round 63).PHASE = true ∧
      (after (step { fullAt .round 63 with turns := [.host], cmds := [0x500] })).isSome = true ∧
      ({ fullAt .round 63 with turns := [.host], cmds := [0x500] } : State).turnNow = .host ∧
      (after (step { atPos .done 0 with cmds := [0x400] })).isSome = true ∧
      (after (step { atPos .done 0 with cmds := [0x1ff] })).map (fun s => (s.PHASE, s.cmds))
        = some (.absorb, []) := by decide

/-- `ControlFlowDoesNotDependOnData`: two states that present different bytes. -/
theorem witness_ControlFlow :
    State.Inv { atPos .absorb 0 with cmds := [0x200], turns := [] } ∧
      State.Inv { atPos .absorb 0 with cmds := [0x2ff], turns := [] } ∧
      sameControl { atPos .absorb 0 with cmds := [0x200], turns := [] }
        { atPos .absorb 0 with cmds := [0x2ff], turns := [] } ∧
      (after (step { atPos .absorb 0 with cmds := [0x200], turns := [] })).isSome = true :=
  ⟨atPos_absorb_inv _ _, atPos_absorb_inv _ _,
    ⟨rfl, rfl, rfl, rfl, rfl, rfl, .cons (.inr (by decide)) .nil⟩, by decide⟩

/-- `ResidueIsNotVisible`: two states in `DONE` with the same digest and different residue. -/
theorem witness_Residue :
    (after (step { fullAt .done 0 with cmds := [0x400] })).isSome = true ∧
      (after (step { atPos .done 0 with cmds := [0x400] })).isSome = true ∧
      readS (fullAt .done 0) = readS (atPos .done 0) ∧ (fullAt .done 0).BUF ≠ (atPos .done 0).BUF := by decide

theorem witness_BusyPeriodsEnd :
    (fullAt .round 63).Inv ∧ (fullAt .round 63).undisturbed ∧ noReserved (fullAt .round 63).cmds ∧
      flagBusy (fullAt .round 63).PHASE = true :=
  ⟨fullAt_round_inv, (by intro _ h; cases h), (by intro _ h; cases h), rfl⟩

/-- The range bounds of the word functions are met at their ends. -/
theorem witness_WordFunctions :
    (31 : Nat) < 32 ∧ (0 : Nat) < 1 ∧ rotr 1 1 = 0x80000000 ∧ rotr 0x80000000 31 = 1 := by decide

theorem witness_RoundIsInvertible :
    roundRegs romIV 0x428a2f98 0x61626380
      = ⟨0x5d6aebcd, 0x6a09e667, 0xbb67ae85, 0x3c6ef372, 0xfa2a4622, 0x510e527f, 0x9b05688c, 0x1f83d9ab⟩ := by
  decide

/-- The closed forms at the boundary of their two cases (R118, `L` = 55 and 56), and two messages. -/
theorem witness_Pad :
    zeroCount 55 = 0 ∧ zeroCount 56 = 63 ∧ blockCount 55 = 1 ∧ blockCount 56 = 2 ∧
      ([] : List Byte).length < 2 ^ 61 ∧ ([0] : List Byte).length < 2 ^ 61 ∧ pad [] = pad [] := by decide

/-- The ranges of the block and schedule statements at their ends: a block of message bytes, words 15 and
16. -/
theorem witness_Blocks :
    (0 : Nat) < (List.replicate 64 (0xff : Byte)).length / 64 ∧ (blocksOf [0x61]).length = 1 ∧
      (blocksOf [0x61]).all (fun B => B.length == 64) = true ∧
      (sched (List.replicate 64 0xff)).getD 15 0 = 0xffffffff ∧
      (sched (List.replicate 64 0xff)).getD 16 0 = 0x203ffffc := by decide +kernel

theorem witness_Serialisation : (List.replicate 32 (0 : Byte)).length = 32 ∧ ser abcState = ser abcState := by
  decide

/-- `SchedulerComputesTheSchedule` and the second half of `CompressorComputesCompress`. -/
theorem witness_SchedulerRun :
    (fullAt .loadw 0).PHASE = .loadw ∧ (fullAt .loadw 0).T = 0 ∧
      (fullAt .loadw 0).BUF = Memory.ofList (List.replicate 64 0) ∧ (List.replicate 64 (0 : Byte)).length = 64 ∧
      Memory.wf 64 (fullAt .loadw 0).W = true ∧ (fullAt .loadw 0).S = some romIV ∧ (fullAt .loadw 0).turns = [] :=
  ⟨rfl, rfl, rfl, rfl, Memory.wf_ofList _ (by simp), rfl, rfl⟩

theorem witness_CompressorRun :
    (fullAt .initw 0).PHASE = .initw ∧ (fullAt .initw 0).T = 0 ∧ (fullAt .initw 0).S = some romIV ∧
      (List.replicate 64 (0 : Word)).length = 64 ∧
      (fullAt .initw 0).W = Memory.ofList (List.replicate 64 0) ∧ (fullAt .initw 0).turns = [] :=
  ⟨rfl, rfl, rfl, rfl, rfl, rfl⟩

/-- `PadderBuildsTheLastBlocks`: the message of one byte. -/
theorem witness_PadderRun :
    ([0x61] : List Byte).length < 2 ^ 61 ∧
      ({ atPos .pad1 0 with N := 1, LEN := 8, BUF := [(0, 0x61)] } : State).N.toNat = ([0x61] : List Byte).length % 64 ∧
      ({ atPos .pad1 0 with N := 1, LEN := 8, BUF := [(0, 0x61)] } : State).LEN.toNat = 8 * ([0x61] : List Byte).length ∧
      [(0, (0x61 : Byte))] = Memory.writeList [(0, 0x61)] 0 (([0x61] : List Byte).drop (64 * (([0x61] : List Byte).length / 64))) ∧
      Memory.wf 64 [(0, (0x61 : Byte))] = true := by decide

/-- `PadderBuildsTheLastBlocks`, its second block: `TAIL = MORE` at `N = 56`. -/
theorem witness_PadderRunTwoBlocks :
    (after (exec .pad1 { atPos .pad1 0 with N := 56, LEN := 448, BUF := zeros64 8 })).map State.TAIL = some .more ∧
      Memory.wf 64 (zeros64 8) = true ∧
      zeros64 8 = Memory.writeList (zeros64 8) 0 ((List.replicate 56 (0 : Byte)).drop (64 * (56 / 64))) := by
  decide +kernel

/-- The premises of the four statements about a transaction: the empty message, presented in `ABSORB`. -/
theorem witness_Transaction :
    State.Inv { atPos .absorb 0 with cmds := transaction [], turns := [] } ∧
      flagBusy (atPos .absorb 0).PHASE = false ∧ ([] : List Byte).length < 2 ^ 61 ∧
      State.undisturbed { atPos .absorb 0 with cmds := transaction [], turns := [] } ∧
      (transaction []).filter (fun c => !isStat c) = transaction [] ∧ transaction [] = [0x100, 0x300] :=
  ⟨atPos_absorb_inv _ _, rfl, by decide, (by intro _ h; cases h), rfl, rfl⟩

/-- The same with `STAT` among the commands, turns of both agents, and `READALL` after them. -/
theorem witness_TransactionInterleaved :
    State.Inv { atPos .absorb 0 with cmds := [0x500, 0x100, 0x5ff, 0x261, 0x300, 0x500], turns := [.engine, .rst 0, .host] } ∧
      State.undisturbed { atPos .absorb 0 with cmds := [], turns := [.engine, .rst 0, .host] } ∧
      [0x500, 0x100, 0x5ff, 0x261, 0x300, 0x500].filter (fun c => !isStat c) = transaction [0x61] ∧
      State.Inv { atPos .absorb 0 with cmds := transaction [0x61] ++ readAll, turns := [] } :=
  ⟨atPos_absorb_inv _ _, fun t h => by simp at h; rcases h with rfl | rfl | rfl <;> simp, by decide, atPos_absorb_inv _ _⟩

end Sys2Proof.Tests
end

section
/-! The four status flags, each read off `PHASE` (spec 10_state.md rule R37). -/

namespace Sys2Proof.Machine

theorem flagIdle_eq_true_iff (p : Phase) : flagIdle p = true ↔ p = .idle := by
  cases p <;> simp [flagIdle]

theorem flagInReady_eq_true_iff (p : Phase) : flagInReady p = true ↔ p = .absorb := by
  cases p <;> simp [flagInReady]

theorem flagBusy_eq_true_iff (p : Phase) :
    flagBusy p = true ↔ p ∈ [Phase.pad1, .pad2, .loadw, .expand, .initw, .round, .accum] := by
  cases p <;> simp [flagBusy]

theorem flagDvalid_eq_true_iff (p : Phase) : flagDvalid p = true ↔ p = .done := by
  cases p <;> simp [flagDvalid]

/-- The four sets of phases of R37 partition the ten phases. -/
theorem count_true_statusFlags (p : Phase) :
    [flagIdle p, flagInReady p, flagBusy p, flagDvalid p].count true = 1 := by
  cases p <;> rfl

/-- Settles O36: each flag's set of phases, their partition of the ten phases, and the phase after
reset. -/
theorem exactlyOneStatusFlag : Obligations.ExactlyOneStatusFlag := by
  refine ⟨fun s => ⟨flagIdle_eq_true_iff _, flagInReady_eq_true_iff _, flagBusy_eq_true_iff _,
    flagDvalid_eq_true_iff _, count_true_statusFlags _⟩, ?_⟩
  have hreset : State.reset.PHASE = .idle := rfl
  exact (flagIdle_eq_true_iff _).2 hreset

end Sys2Proof.Machine
end

section
/-! Big-endian bytes of a word: `be32` and `byte32` undo each other (spec 40_word_functions.md rules R100,
R101). -/

namespace Sys2Proof.Machine

theorem be32_byte32 (x : Word) : be32 (byte32 x 0) (byte32 x 1) (byte32 x 2) (byte32 x 3) = x := by
  have h01 : byte32 x 0 ++ byte32 x 1 = x.extractLsb' 16 16 :=
    BitVec.extractLsb'_append_extractLsb'_eq_extractLsb' rfl
  have h012 : x.extractLsb' 16 16 ++ byte32 x 2 = x.extractLsb' 8 24 :=
    BitVec.extractLsb'_append_extractLsb'_eq_extractLsb' rfl
  have h0123 : x.extractLsb' 8 24 ++ byte32 x 3 = x.extractLsb' 0 32 :=
    BitVec.extractLsb'_append_extractLsb'_eq_extractLsb' rfl
  rw [be32, h01, h012, h0123, BitVec.extractLsb'_eq_self]

/-- The bytes are given as a function so that one equation speaks of all four places. -/
theorem byte32_be32 (f : Nat → Byte) {k : Nat} (hk : k < 4) :
    byte32 (be32 (f 0) (f 1) (f 2) (f 3)) k = f k := by
  have skip {n : Nat} (hi : BitVec n) (lo : Byte) {i : Nat} (h : 8 ≤ i) :
      (hi ++ lo).extractLsb' i 8 = hi.extractLsb' (i - 8) 8 := BitVec.extractLsb'_append_eq_of_le h
  obtain rfl | rfl | rfl | rfl : k = 0 ∨ k = 1 ∨ k = 2 ∨ k = 3 := by omega
  · calc byte32 (be32 (f 0) (f 1) (f 2) (f 3)) 0
        = (f 0 ++ f 1 ++ f 2).extractLsb' 16 8 := skip _ _ (by decide)
      _ = (f 0 ++ f 1).extractLsb' 8 8 := skip _ _ (by decide)
      _ = f 0 := BitVec.extractLsb'_append_eq_left
  · calc byte32 (be32 (f 0) (f 1) (f 2) (f 3)) 1
        = (f 0 ++ f 1 ++ f 2).extractLsb' 8 8 := skip _ _ (by decide)
      _ = (f 0 ++ f 1).extractLsb' 0 8 := skip _ _ (by decide)
      _ = f 1 := BitVec.extractLsb'_append_eq_right
  · calc byte32 (be32 (f 0) (f 1) (f 2) (f 3)) 2
        = (f 0 ++ f 1 ++ f 2).extractLsb' 0 8 := skip _ _ (by decide)
      _ = f 2 := BitVec.extractLsb'_append_eq_right
  · exact BitVec.extractLsb'_append_eq_right

end Sys2Proof.Machine
end

section
/-! Serialising a register file: `ser` lists the digest view in order, and `deser` undoes it (spec
10_state.md rule R28, 20_memory.md rule R54, 43_compressor.md rule R161). -/

namespace Sys2Proof.Machine

theorem ser_eq_map_digestByte (r : Regs8) : ser r = (List.range 32).map (digestByte r) := rfl

@[simp] theorem ser_length (r : Regs8) : (ser r).length = 32 := rfl

theorem ser_getElem? (r : Regs8) {n : Nat} (hn : n < 32) : (ser r)[n]? = some (digestByte r n) := by
  simp [ser_eq_map_digestByte, hn]

theorem digestByte_four_mul_add (r : Regs8) (i : Nat) {k : Nat} (hk : k < 4) :
    digestByte r (4 * i + k) = byte32 (r.get i) k := by
  rw [digestByte, show (4 * i + k) / 4 = i by omega, show (4 * i + k) % 4 = k by omega]

/-- The register file that 32 bytes serialise: word `i` is `be32` of bytes `4i` to `4i + 3`. -/
def deser (bs : List Byte) : Regs8 :=
  Regs8.ofFn fun i =>
    be32 (bs.getD (4 * i) 0) (bs.getD (4 * i + 1) 0) (bs.getD (4 * i + 2) 0) (bs.getD (4 * i + 3) 0)

theorem digestByte_deser (bs : List Byte) {n : Nat} (hn : n < 32) :
    digestByte (deser bs) n = bs.getD n 0 := by
  have hi : n / 4 < 8 := by omega
  rw [digestByte, deser, Regs8.get_ofFn _ hi]
  have hbyte := byte32_be32 (fun k => bs.getD (4 * (n / 4) + k) 0) (Nat.mod_lt n (by decide : 4 > 0))
  simpa only [Nat.add_zero, Nat.div_add_mod] using hbyte

theorem ser_deser {bs : List Byte} (h : bs.length = 32) : ser (deser bs) = bs := by
  refine List.ext_getElem (by rw [ser_length, h]) fun n _ hn => ?_
  simp [ser_eq_map_digestByte, digestByte_deser bs (h ▸ hn), hn]

/-- `ser r` is eight explicit words of four explicit bytes, so every byte `deser` reads is computed. -/
theorem deser_ser (r : Regs8) : deser (ser r) = r := by
  simp [deser, Regs8.ofFn, ser, bytes32, be32_byte32]

/-- Settles O52: `ser` lists the digest view, and `deser` is its inverse on both sides. -/
theorem serialisationIsTheDigestView : Obligations.SerialisationIsTheDigestView := by
  refine ⟨fun r => ⟨ser_length r, fun i k hi hk => ?_⟩, Function.LeftInverse.injective deser_ser,
    fun bs h => ⟨deser bs, ser_deser h⟩⟩
  have hview : digestByte r (4 * i + k) = byte32 (r.get i) k := digestByte_four_mul_add r i hk
  exact ⟨(ser_getElem? r (by omega)).trans (congrArg some hview), hview⟩

end Sys2Proof.Machine
end

section
/-! The opcode map by the fields of a command word, `op = [11:8]` and `arg = [7:0]`: what each row's mask and
match say of the two fields, and the canonical spelling of each command (spec 30_encoding.md rules R75,
R76). -/

namespace Sys2Proof

/-- The mask `0xF00` keeps `op` and clears `arg`. -/
theorem and_opMask_eq_iff (op m : BitVec 4) (arg : BitVec 8) :
    (op ++ arg) &&& 0xF00#12 = m ++ 0#8 ↔ op = m := by
  have hmask : 0xF00#12 = BitVec.allOnes 4 ++ 0#8 := rfl
  rw [hmask, BitVec.and_append, BitVec.and_allOnes, BitVec.and_zero, BitVec.append_left_inj]

/-- The bits of `arg` that a `READ` word must have clear are those of an index above 31. -/
theorem and_readArgMask_eq_zero_iff (arg : BitVec 8) : arg &&& 0xE0#8 = 0#8 ↔ arg.toNat < 32 := by
  decide +revert

/-- The mask `0xFE0` keeps `op` and the three upper bits of `arg`. -/
theorem and_readMask_eq_iff (op m : BitVec 4) (arg : BitVec 8) :
    (op ++ arg) &&& 0xFE0#12 = m ++ 0#8 ↔ op = m ∧ arg.toNat < 32 := by
  have hmask : 0xFE0#12 = BitVec.allOnes 4 ++ 0xE0#8 := rfl
  rw [hmask, BitVec.and_append, BitVec.and_allOnes, ← and_readArgMask_eq_zero_iff]
  constructor
  · intro h
    have hop : op = m := by
      simpa only [BitVec.extractLsb'_append_eq_left] using congrArg (·.extractLsb' 8 4) h
    subst hop
    exact ⟨rfl, (BitVec.append_right_inj op).1 h⟩
  · rintro ⟨rfl, h⟩
    rw [h]

/-- The opcode map of R75 by its two fields, every other word being reserved (R82). -/
theorem decode_cmd_append (op : BitVec 4) (arg : BitVec 8) :
    decode (.cmd (op ++ arg)) =
      if op = 1 then .ok .start
      else if op = 2 then .ok (.push arg)
      else if op = 3 then .ok .finish
      else if op = 4 ∧ arg.toNat < 32 then .ok (.read arg)
      else if op = 5 then .ok .stat
      else .error .reservedCommand := by
  have hstart : (op ++ arg) &&& 0xF00#12 = 0x100#12 ↔ op = 1 := and_opMask_eq_iff op 1 arg
  have hpush : (op ++ arg) &&& 0xF00#12 = 0x200#12 ↔ op = 2 := and_opMask_eq_iff op 2 arg
  have hfinish : (op ++ arg) &&& 0xF00#12 = 0x300#12 ↔ op = 3 := and_opMask_eq_iff op 3 arg
  have hread : (op ++ arg) &&& 0xFE0#12 = 0x400#12 ↔ op = 4 ∧ arg.toNat < 32 := and_readMask_eq_iff op 4 arg
  have hstat : (op ++ arg) &&& 0xF00#12 = 0x500#12 ↔ op = 5 := and_opMask_eq_iff op 5 arg
  have harg : (op ++ arg).setWidth 8 = arg := BitVec.setWidth_append_eq_right
  simp only [decode, decodeCmd, hstart, hpush, hfinish, hread, hstat, harg]

/-- The two fields do not overlap, so a word is the sum of its row's match value and `arg`. -/
theorem append_eq_add_setWidth (op : BitVec 4) (arg : BitVec 8) :
    op ++ arg = (op ++ 0#8) + arg.setWidth 12 := by
  have hzero : arg.setWidth 12 = 0#4 ++ arg := BitVec.setWidth_eq_append (by decide)
  rw [hzero, BitVec.append_zero_add_zero_append]

/-- Settles O2: the opcode map by fields, and each command's canonical word. -/
theorem commandWordsDecodeByTheOpcodeMap : Obligations.CommandWordsDecodeByTheOpcodeMap := by
  refine ⟨decode_cmd_append, rfl, fun b => ?_, rfl, fun n hn => ?_, rfl, rfl⟩
  · exact congrArg Selector.cmd (append_eq_add_setWidth 2 b)
  · have hidx : (BitVec.ofNat 8 n).setWidth 12 = BitVec.ofNat 12 n := by bv_omega
    rw [← hidx]
    exact congrArg Selector.cmd (append_eq_add_setWidth 4 (BitVec.ofNat 8 n))

end Sys2Proof
end

section
/-! `STAT` and the status byte (spec 30_encoding.md rule R80, 44_engine_and_commands.md rule R168). -/

namespace Sys2Proof.Machine

theorem exec_stat (s : State) : exec .stat s = .next (s.respond (statusByte s.PHASE)) := rfl

/-- Settles O15: `STAT` responds with the status byte, which has one value in each of the ten phases. -/
theorem statReturnsTheStatusByte : Obligations.StatReturnsTheStatusByte := by
  intro s
  rw [exec_stat]
  refine congrArg (fun b => Host.Outcome.next (s.respond b)) ?_
  cases s.PHASE <;> rfl

end Sys2Proof.Machine
end

section
/-! Addition, the shifts and the rotation: which bit of the operand each bit of the result is (spec
40_word_functions.md rules R90, R92, R93). -/

namespace Sys2Proof.Machine

theorem toNat_add32 (x y : Word) : (add32 x y).toNat = (x.toNat + y.toNat) % 2 ^ 32 :=
  BitVec.toNat_add x y

/-- The positions past bit 31 are spelled out: they are the zeros that the shift brings in. -/
theorem getLsbD_shr (x : Word) (n i : Nat) :
    (shr x n).getLsbD i = (decide (i + n < 32) && x.getLsbD (i + n)) := by
  rw [shr, BitVec.getLsbD_ushiftRight, Nat.add_comm n i]
  by_cases h : i + n < 32
  · simp [h]
  · simp [h, BitVec.getLsbD_of_ge x (i + n) (by omega)]

/-- A bit either stays below bit 32 after adding `n mod 32`, or wraps round to the bottom. -/
theorem getLsbD_rotr (x : Word) (n : Nat) {i : Nat} (hi : i < 32) :
    (rotr x n).getLsbD i = x.getLsbD ((i + n) % 32) := by
  rw [rotr, BitVec.getLsbD_rotateRight]
  by_cases hwrap : i < 32 - n % 32
  · have hpos : (i + n) % 32 = n % 32 + i := by omega
    simp [hwrap, hpos]
  · have hpos : (i + n) % 32 = i - (32 - n % 32) := by omega
    simp [hwrap, hpos, hi]

theorem rotr_eq_shr_or_shl (x : Word) {n : Nat} (hn : n < 32) :
    rotr x n = shr x n ||| shl x (32 - n) := by
  rw [rotr, BitVec.rotateRight_def, Nat.mod_eq_of_lt hn, shr, shl]

/-- Settles O43: addition wraps, and rotation is the bit permutation that the shift formula writes out. -/
theorem additionWrapsAndRotationMovesBits : Obligations.AdditionWrapsAndRotationMovesBits :=
  ⟨toNat_add32, fun x n _ hi => getLsbD_rotr x n hi, fun x _ _ hn => rotr_eq_shr_or_shl x hn⟩

end Sys2Proof.Machine
end

section
/-! `Ch`, `Maj` and the four sigma functions bit by bit (spec 40_word_functions.md rules R94 to R99). -/

namespace Sys2Proof.Machine

theorem getLsbD_Ch (x y z : Word) {i : Nat} (hi : i < 32) :
    (Ch x y z).getLsbD i = if x.getLsbD i = true then y.getLsbD i else z.getLsbD i := by
  have hbit : (Ch x y z).getLsbD i
      = ((x.getLsbD i && y.getLsbD i) ^^ (!x.getLsbD i && z.getLsbD i)) := by simp [Ch, hi]
  rw [hbit]
  cases x.getLsbD i <;> simp

theorem getLsbD_Maj (x y z : Word) (i : Nat) :
    (Maj x y z).getLsbD i
      = (((x.getLsbD i && y.getLsbD i) ^^ (x.getLsbD i && z.getLsbD i)) ^^ (y.getLsbD i && z.getLsbD i)) := by
  simp [Maj]

/-- Two of three bits are set exactly when an odd number of the three pairs is: one pair or all three. -/
theorem xor_pairs_eq_true_iff (a b c : Bool) :
    (((a && b) ^^ (a && c)) ^^ (b && c)) = true ↔ 2 ≤ [a, b, c].count true := by
  decide +revert

/-- Settles O44: `Ch` selects by the bit of `x`, and `Maj` votes. -/
theorem chSelectsAndMajVotes : Obligations.ChSelectsAndMajVotes := by
  intro x y z i hi
  refine ⟨getLsbD_Ch x y z hi, ?_⟩
  rw [getLsbD_Maj]
  exact xor_pairs_eq_true_iff _ _ _

/-- The shape of the two big sigma functions. -/
theorem getLsbD_rotr_xor_rotr_xor_rotr (x : Word) (a b c : Nat) {i : Nat} (hi : i < 32) :
    (rotr x a ^^^ rotr x b ^^^ rotr x c).getLsbD i
      = ((x.getLsbD ((i + a) % 32) ^^ x.getLsbD ((i + b) % 32)) ^^ x.getLsbD ((i + c) % 32)) := by
  simp only [BitVec.getLsbD_xor, getLsbD_rotr x _ hi]

/-- The shape of the two small sigma functions. -/
theorem getLsbD_rotr_xor_rotr_xor_shr (x : Word) (a b c : Nat) {i : Nat} (hi : i < 32) :
    (rotr x a ^^^ rotr x b ^^^ shr x c).getLsbD i
      = ((x.getLsbD ((i + a) % 32) ^^ x.getLsbD ((i + b) % 32)) ^^
          (decide (i + c < 32) && x.getLsbD (i + c))) := by
  simp only [BitVec.getLsbD_xor, getLsbD_rotr x _ hi, getLsbD_shr]

/-- Settles O45: the four sigma functions are of two shapes, each at two triples of counts. -/
theorem sigmaFunctionsBitByBit : Obligations.SigmaFunctionsBitByBit := fun x _ hi =>
  ⟨getLsbD_rotr_xor_rotr_xor_rotr x 2 13 22 hi, getLsbD_rotr_xor_rotr_xor_rotr x 6 11 25 hi,
    getLsbD_rotr_xor_rotr_xor_shr x 7 18 3 hi, getLsbD_rotr_xor_rotr_xor_shr x 17 19 10 hi⟩

end Sys2Proof.Machine
end

section
/-! The big-endian value of bytes: joining bit vectors adds their values by place (spec 40_word_functions.md
rules R100 to R102). -/

namespace Sys2Proof.Machine

theorem toNat_append_eq_mul_add {m n : Nat} (hi : BitVec m) (lo : BitVec n) :
    (hi ++ lo).toNat = hi.toNat * 2 ^ n + lo.toNat := by
  rw [BitVec.toNat_append, ← Nat.shiftLeft_add_eq_or_of_lt lo.isLt, Nat.shiftLeft_eq]

theorem toNat_be32 (b0 b1 b2 b3 : Byte) :
    (be32 b0 b1 b2 b3).toNat
      = b0.toNat * 2 ^ 24 + b1.toNat * 2 ^ 16 + b2.toNat * 2 ^ 8 + b3.toNat := by
  simp only [be32, toNat_append_eq_mul_add]
  omega

theorem bytes32_be32 (b0 b1 b2 b3 : Byte) : bytes32 (be32 b0 b1 b2 b3) = [b0, b1, b2, b3] := by
  have hbyte (k : Nat) (hk : k < 4) : byte32 (be32 b0 b1 b2 b3) k = [b0, b1, b2, b3].getD k 0 :=
    byte32_be32 (fun k => [b0, b1, b2, b3].getD k 0) hk
  rw [bytes32, hbyte 0 (by decide), hbyte 1 (by decide), hbyte 2 (by decide), hbyte 3 (by decide)]
  rfl

/-- One step of the big-endian sum: the bits above `start + 8`, then the byte at `start`. -/
theorem toNat_extractLsb'_mul_add_byte (v : BitVec 64) (start len : Nat) :
    (v.extractLsb' (start + 8) len).toNat * 256 + (v.extractLsb' start 8).toNat
      = (v.extractLsb' start (len + 8)).toNat := by
  rw [← BitVec.extractLsb'_append_extractLsb'_eq_extractLsb' rfl, toNat_append_eq_mul_add]
  rfl

theorem foldl_be64 (v : BitVec 64) : (be64 v).foldl (fun n b => n * 256 + b.toNat) 0 = v.toNat := by
  have step := toNat_extractLsb'_mul_add_byte v
  simp only [be64, List.foldl, Nat.zero_mul, Nat.zero_add]
  rw [step 48 8, step 40 16, step 32 24, step 24 32, step 16 40, step 8 48, step 0 56,
    BitVec.extractLsb'_eq_self]

/-- Settles O46: `be32` and `be64` are big-endian, and `bytes32` undoes `be32` on both sides. -/
theorem wordsAndBytesAreBigEndian : Obligations.WordsAndBytesAreBigEndian :=
  ⟨toNat_be32, bytes32_be32, be32_byte32, fun v => ⟨be64_length v, foldl_be64 v⟩⟩

end Sys2Proof.Machine
end

section
/-! The padder's two fills: which byte each address of `BUF` holds after `PAD1` and `PAD2` (spec 41_padder.md
rules R115, R116). -/

namespace Sys2Proof.Machine

theorem Memory.read_writeList_of_getElem? {w : Nat} {vs : List (BitVec w)} {v : BitVec w} {i : Nat}
    (m : List (Nat × BitVec w)) (a : Nat) (h : vs[i]? = some v) :
    Memory.read (Memory.writeList m a vs) (a + i) = some v := by
  obtain ⟨hi, -⟩ := List.getElem?_eq_some_iff.1 h
  rw [Memory.read_writeList, if_pos (by omega), Nat.add_sub_cancel_left, h]

theorem Memory.read_writeList_outside {w : Nat} {vs : List (BitVec w)} {a b : Nat}
    (m : List (Nat × BitVec w)) (h : b < a ∨ a + vs.length ≤ b) :
    Memory.read (Memory.writeList m a vs) b = Memory.read m b := by
  rw [Memory.read_writeList, if_neg (by omega)]

theorem be64_getElem? (v : BitVec 64) {k : Nat} (hk : k < 8) :
    (be64 v)[k]? = some (v.extractLsb' (56 - 8 * k) 8) := by
  obtain rfl | rfl | rfl | rfl | rfl | rfl | rfl | rfl :
    k = 0 ∨ k = 1 ∨ k = 2 ∨ k = 3 ∨ k = 4 ∨ k = 5 ∨ k = 6 ∨ k = 7 := by omega
  all_goals rfl

/-! Both fills end a last block in the same way: some zeros, then the length. -/

theorem zeros_append_be64_getElem?_zero (len : BitVec 64) {z i : Nat} (hi : i < z) :
    (List.replicate z 0 ++ be64 len)[i]? = some 0 := by
  rw [List.getElem?_append_left (by simpa using hi), List.getElem?_replicate_of_lt hi]

theorem zeros_append_be64_getElem?_length (len : BitVec 64) (z : Nat) {k : Nat} (hk : k < 8) :
    (List.replicate z 0 ++ be64 len)[z + k]? = some (len.extractLsb' (56 - 8 * k) 8) := by
  rw [List.getElem?_append_right (by simp), List.length_replicate, Nat.add_sub_cancel_left,
    be64_getElem? len hk]

theorem pad1Bytes_of_le {n : Nat} (len : BitVec 64) (hn : n ≤ 55) :
    pad1Bytes n len = 0x80 :: (List.replicate (55 - n) 0 ++ be64 len) :=
  if_pos (Nat.lt_succ_of_le hn)

theorem pad1Bytes_of_ge {n : Nat} (len : BitVec 64) (hn : 56 ≤ n) :
    pad1Bytes n len = 0x80 :: List.replicate (63 - n) 0 :=
  if_neg (Nat.not_lt_of_le hn)

theorem pad1Bytes_getElem?_zero (n : Nat) (len : BitVec 64) : (pad1Bytes n len)[0]? = some 0x80 := by
  unfold pad1Bytes
  split <;> rfl

section
variable (m : List (Nat × Byte)) (len : BitVec 64)

theorem read_pad1_outside {n a : Nat} (hn : n < 64) (h : a < n ∨ 64 ≤ a) :
    Memory.read (Memory.writeList m n (pad1Bytes n len)) a = Memory.read m a := by
  rw [← pad1Bytes_length len hn] at h
  exact Memory.read_writeList_outside m h

theorem read_pad1_marker (n : Nat) :
    Memory.read (Memory.writeList m n (pad1Bytes n len)) n = some 0x80 :=
  Memory.read_writeList_of_getElem? m n (pad1Bytes_getElem?_zero n len)

theorem read_pad1_zero_of_le {n j : Nat} (hnj : n < j) (hj : j ≤ 55) :
    Memory.read (Memory.writeList m n (pad1Bytes n len)) j = some 0 := by
  obtain ⟨i, rfl⟩ := Nat.exists_eq_add_of_lt hnj
  rw [pad1Bytes_of_le len (by omega)]
  refine Memory.read_writeList_of_getElem? m n (i := i + 1) ?_
  rw [List.getElem?_cons_succ]
  exact zeros_append_be64_getElem?_zero len (by omega)

theorem read_pad1_length {n k : Nat} (hn : n ≤ 55) (hk : k < 8) :
    Memory.read (Memory.writeList m n (pad1Bytes n len)) (56 + k)
      = some (len.extractLsb' (56 - 8 * k) 8) := by
  have haddr : 56 + k = n + (55 - n + k + 1) := by omega
  rw [pad1Bytes_of_le len hn, haddr]
  refine Memory.read_writeList_of_getElem? m n ?_
  rw [List.getElem?_cons_succ]
  exact zeros_append_be64_getElem?_length len (55 - n) hk

theorem read_pad1_zero_of_ge {n j : Nat} (hn : 56 ≤ n) (hnj : n < j) (hj : j ≤ 63) :
    Memory.read (Memory.writeList m n (pad1Bytes n len)) j = some 0 := by
  obtain ⟨i, rfl⟩ := Nat.exists_eq_add_of_lt hnj
  rw [pad1Bytes_of_ge len hn]
  refine Memory.read_writeList_of_getElem? m n (i := i + 1) ?_
  rw [List.getElem?_cons_succ]
  exact List.getElem?_replicate_of_lt (by omega)

theorem read_pad2_zero (j : Nat) (hj : j ≤ 55) :
    Memory.read (Memory.writeList m 0 (pad2Bytes len)) j = some 0 := by
  have hbyte : (pad2Bytes len)[j]? = some 0 :=
    zeros_append_be64_getElem?_zero len (Nat.lt_succ_of_le hj)
  simpa only [Nat.zero_add] using Memory.read_writeList_of_getElem? m 0 hbyte

theorem read_pad2_length (k : Nat) (hk : k < 8) :
    Memory.read (Memory.writeList m 0 (pad2Bytes len)) (56 + k)
      = some (len.extractLsb' (56 - 8 * k) 8) := by
  have hbyte : (pad2Bytes len)[56 + k]? = some (len.extractLsb' (56 - 8 * k) 8) :=
    zeros_append_be64_getElem?_length len 56 hk
  simpa only [Nat.zero_add] using Memory.read_writeList_of_getElem? m 0 hbyte

theorem read_pad2_outside (a : Nat) (ha : 64 ≤ a) :
    Memory.read (Memory.writeList m 0 (pad2Bytes len)) a = Memory.read m a :=
  Memory.read_writeList_outside m (.inr (by simpa using ha))

end

theorem exec_pad1_of_phase {s : State} (h : s.PHASE = .pad1) :
    exec .pad1 s = .next { s with
      BUF := Memory.writeList s.BUF s.N.toNat (pad1Bytes s.N.toNat s.LEN)
      TAIL := if s.N.toNat < Config.lengthAt then .last else .more
      N := 0, T := 0, PHASE := .loadw } :=
  if_pos h

theorem exec_pad2_of_phase {s : State} (h : s.PHASE = .pad2) :
    exec .pad2 s = .next { s with
      BUF := Memory.writeList s.BUF 0 (pad2Bytes s.LEN), TAIL := .last, T := 0, PHASE := .loadw } :=
  if_pos h

/-- Settles O20: every byte of `BUF` after `PAD1`, on both sides of the boundary between `N = 55` and
`N = 56`. -/
theorem pad1WritesMarkerZerosAndLength : Obligations.Pad1WritesMarkerZerosAndLength := by
  intro s h
  refine ⟨_, exec_pad1_of_phase h, fun a ha => read_pad1_outside s.BUF s.LEN s.N.isLt ha,
    read_pad1_marker s.BUF s.LEN _, fun hle => ⟨fun j hnj hj => ?_, fun k hk => ?_, ?_⟩,
    fun hge => ⟨fun j hnj hj => ?_, ?_⟩, rfl⟩
  · exact read_pad1_zero_of_le s.BUF s.LEN hnj hj
  · exact read_pad1_length s.BUF s.LEN hle hk
  · exact if_pos (Nat.lt_succ_of_le hle)
  · exact read_pad1_zero_of_ge s.BUF s.LEN hge hnj hj
  · exact if_neg (Nat.not_lt_of_le hge)

/-- Settles O21: every byte of `BUF` after `PAD2`. The new buffer is made opaque, so that no unifier runs its
64 writes. -/
theorem pad2WritesZerosAndLength : Obligations.Pad2WritesZerosAndLength := by
  intro s h
  have hexec := exec_pad2_of_phase h
  have hzero := read_pad2_zero s.BUF s.LEN
  have hlength := read_pad2_length s.BUF s.LEN
  have houtside := read_pad2_outside s.BUF s.LEN
  generalize Memory.writeList s.BUF 0 (pad2Bytes s.LEN) = buf at hexec hzero hlength houtside
  exact ⟨_, hexec, hzero, hlength, houtside, rfl⟩

end Sys2Proof.Machine
end

section
/-! The scheduler's two micro-operations, each at the sequencer positions where it stores a word (spec
42_block_scheduler.md rules R127, R128). -/

namespace Sys2Proof.Machine

theorem be32_eq_ofNat (b0 b1 b2 b3 : Byte) :
    be32 b0 b1 b2 b3
      = BitVec.ofNat 32 (b0.toNat * 2 ^ 24 + b1.toNat * 2 ^ 16 + b2.toNat * 2 ^ 8 + b3.toNat) := by
  rw [← toNat_be32, BitVec.ofNat_toNat, BitVec.setWidth_eq]

theorem expandWord_eq_ofNat (w2 w7 w15 w16 : Word) :
    expandWord w2 w7 w15 w16
      = BitVec.ofNat 32 ((ssig1 w2).toNat + w7.toNat + (ssig0 w15).toNat + w16.toNat) := by
  simp [expandWord, add32, BitVec.ofNat_add]

theorem ofNat_toNat_add_one {n : Nat} (t : BitVec n) : BitVec.ofNat n (t.toNat + 1) = t + 1 := by
  rw [BitVec.ofNat_add, BitVec.ofNat_toNat, BitVec.setWidth_eq]
  rfl

/-! Where the sequencer goes, read off the value of `T`. -/

theorem afterLdw_of_phase {s : State} (hp : s.PHASE = .loadw) :
    afterLdw s = { s with
      T := BitVec.ofNat 6 (s.T.toNat + 1)
      PHASE := if s.T.toNat = 15 then .expand else .loadw } := by
  by_cases h : s.T.toNat = 15
  · have hT : s.T = 15 := BitVec.eq_of_toNat_eq h
    rw [afterLdw, if_pos hT, if_pos h, h]
    rfl
  · have hT : s.T ≠ 15 := fun e => h (congrArg BitVec.toNat e)
    rw [afterLdw, if_neg hT, if_neg h, ofNat_toNat_add_one, ← hp]

theorem afterExp_of_phase {s : State} (hp : s.PHASE = .expand) :
    afterExp s = { s with
      T := if s.T.toNat = 63 then 0 else BitVec.ofNat 6 (s.T.toNat + 1)
      PHASE := if s.T.toNat = 63 then .initw else .expand } := by
  by_cases h : s.T.toNat = 63
  · have hT : s.T = 63 := BitVec.eq_of_toNat_eq h
    rw [afterExp, if_pos hT, if_pos h, if_pos h]
  · have hT : s.T ≠ 63 := fun e => h (congrArg BitVec.toNat e)
    rw [afterExp, if_neg hT, if_neg h, if_neg h, ofNat_toNat_add_one, ← hp]

theorem exec_ldw_of_phase {s : State} (hp : s.PHASE = .loadw) (hT : s.T.toNat ≤ 15) :
    exec .ldw s = .next { s with
      W := Memory.write s.W s.T.toNat (bufWord s (4 * s.T.toNat))
      T := BitVec.ofNat 6 (s.T.toNat + 1)
      PHASE := if s.T.toNat = 15 then .expand else .loadw } :=
  ((if_pos hp).trans (if_pos (Nat.lt_succ_of_le hT))).trans
    (congrArg Host.Outcome.next (afterLdw_of_phase hp))

theorem exec_exp_of_phase {s : State} (hp : s.PHASE = .expand) (hT : 16 ≤ s.T.toNat) :
    exec .exp s = .next { s with
      W := Memory.write s.W s.T.toNat (nextSchedWord s s.T.toNat)
      T := if s.T.toNat = 63 then 0 else BitVec.ofNat 6 (s.T.toNat + 1)
      PHASE := if s.T.toNat = 63 then .initw else .expand } :=
  ((if_pos hp).trans (if_pos hT)).trans (congrArg Host.Outcome.next (afterExp_of_phase hp))

/-- Settles O22: `LDW` stores the big-endian value of its four bytes and moves the sequencer on. -/
theorem ldwLoadsAScheduleWord : Obligations.LdwLoadsAScheduleWord := by
  intro s b0 b1 b2 b3 hp hT h0 h1 h2 h3
  rw [exec_ldw_of_phase hp hT, bufWord_of_reads h0 h1 h2 h3, be32_eq_ofNat]

/-- Settles O23: `EXP` stores the sum of its four terms and moves the sequencer on. -/
theorem expExpandsAScheduleWord : Obligations.ExpExpandsAScheduleWord := by
  intro s w2 w7 w15 w16 hp hT h2 h7 h15 h16
  rw [exec_exp_of_phase hp hT, nextSchedWord_of_reads h2 h7 h15 h16, expandWord_eq_ofNat]

end Sys2Proof.Machine
end

section
/-! The schedule of a block: the words of `parse`, then each word from the ones before it (spec
42_block_scheduler.md rules R125, R126). -/

namespace Sys2Proof.Machine

@[simp] theorem parse_length (B : List Byte) : (parse B).length = 16 := by simp [parse, Config.parsedWords]

theorem parse_getD (B : List Byte) {j : Nat} (hj : j < 16) :
    (parse B).getD j 0
      = be32 (B.getD (4 * j) 0) (B.getD (4 * j + 1) 0) (B.getD (4 * j + 2) 0) (B.getD (4 * j + 3) 0) := by
  simp [parse, Config.parsedWords, hj]

/-- The word that the recurrence of R126 gives at index `j` of a schedule `ws`. -/
def recurrenceWord (ws : List Word) (j : Nat) : Word :=
  expandWord (ws.getD (j - 2) 0) (ws.getD (j - 7) 0) (ws.getD (j - 15) 0) (ws.getD (j - 16) 0)

theorem extendSched_succ (k : Nat) (ws : List Word) :
    extendSched (k + 1) ws = extendSched k (ws ++ [recurrenceWord ws ws.length]) := rfl

/-- The recurrence looks only at earlier words, so schedules that agree there give the same word. -/
theorem recurrenceWord_congr {ws ws' : List Word} {j : Nat} (hj : 0 < j)
    (h : ∀ i, i < j → ws.getD i 0 = ws'.getD i 0) : recurrenceWord ws j = recurrenceWord ws' j := by
  simp only [recurrenceWord, h (j - 2) (by omega), h (j - 7) (by omega), h (j - 15) (by omega),
    h (j - 16) (by omega)]

@[simp] theorem extendSched_length (k : Nat) (ws : List Word) :
    (extendSched k ws).length = ws.length + k := by
  induction k generalizing ws with
  | zero => rfl
  | succ k ih =>
    rw [extendSched_succ, ih, List.length_append, List.length_singleton]
    omega

/-- Extending a schedule keeps the words it has. -/
theorem extendSched_getD_of_lt (k : Nat) {ws : List Word} {j : Nat} (hj : j < ws.length) :
    (extendSched k ws).getD j 0 = ws.getD j 0 := by
  induction k generalizing ws with
  | zero => rfl
  | succ k ih =>
    rw [extendSched_succ, ih (by rw [List.length_append]; omega), List.getD_append _ _ _ _ hj]

/-- The first word that extending a schedule adds. -/
theorem extendSched_succ_getD_length (k : Nat) (ws : List Word) :
    (extendSched (k + 1) ws).getD ws.length 0 = recurrenceWord ws ws.length := by
  rw [extendSched_succ, extendSched_getD_of_lt k (by simp)]
  simp

/-- Every word that extending a schedule adds is the recurrence of the extended schedule itself. -/
theorem extendSched_getD_of_ge {k : Nat} {ws : List Word} {j : Nat} (hpos : 0 < ws.length)
    (hge : ws.length ≤ j) (hlt : j < ws.length + k) :
    (extendSched k ws).getD j 0 = recurrenceWord (extendSched k ws) j := by
  induction k generalizing ws with
  | zero => omega
  | succ k ih =>
    obtain rfl | hgt := Nat.eq_or_lt_of_le hge
    · rw [extendSched_succ_getD_length]
      exact recurrenceWord_congr hpos fun i hi => (extendSched_getD_of_lt (k + 1) hi).symm
    · have hlen : (ws ++ [recurrenceWord ws ws.length]).length = ws.length + 1 := by simp
      rw [extendSched_succ]
      exact ih (by omega) (by omega) (by omega)

theorem sched_eq_extendSched (B : List Byte) : sched B = extendSched 48 (parse B) := rfl

@[simp] theorem sched_length (B : List Byte) : (sched B).length = 64 := by simp [sched_eq_extendSched]

theorem sched_getD_of_lt (B : List Byte) {j : Nat} (hj : j < 16) :
    (sched B).getD j 0 = (parse B).getD j 0 :=
  extendSched_getD_of_lt 48 (by simpa using hj)

theorem sched_getD_of_ge (B : List Byte) {j : Nat} (hge : 16 ≤ j) (hlt : j < 64) :
    (sched B).getD j 0 = recurrenceWord (sched B) j :=
  extendSched_getD_of_ge (k := 48) (by simp) (by simpa using hge) (by simpa using hlt)

/-- Settles O51: the words of the block, then the recurrence, by induction on the words added. -/
theorem scheduleSatisfiesTheRecurrence : Obligations.ScheduleSatisfiesTheRecurrence := fun B =>
  ⟨sched_length B, fun _ hj => (sched_getD_of_lt B hj).trans (parse_getD B hj),
    fun _ hge hlt => sched_getD_of_ge B hge hlt⟩

end Sys2Proof.Machine
end

section
/-! The compressor's three micro-operations in their phases (spec 43_compressor.md rules R140 to R144). -/

namespace Sys2Proof.Machine

/-- Where the sequencer goes, read off the value of `T`. -/
theorem afterRound_of_phase {s : State} (hp : s.PHASE = .round) :
    afterRound s = { s with
      T := if s.T.toNat = 63 then 0 else BitVec.ofNat 6 (s.T.toNat + 1)
      PHASE := if s.T.toNat = 63 then .accum else .round } := by
  have hlast : s.T.toNat = 63 ↔ s.T = 63 := BitVec.toNat_inj (y := 63)
  simp only [afterRound, hlast, ofNat_toNat_add_one]
  by_cases hT : s.T = 63
  · simp only [if_pos hT]
  · simp only [if_neg hT, ← hp]

theorem exec_initw_of_phase {s : State} (hp : s.PHASE = .initw) :
    exec .initw s = .next { s with R := some (readS s), T := 0, PHASE := .round } :=
  if_pos hp

theorem exec_round_of_phase {s : State} (hp : s.PHASE = .round) :
    exec .round s = .next { s with
      R := some (roundRegs (readR s) (romK s.T.toNat) (schedWord s s.T.toNat))
      T := if s.T.toNat = 63 then 0 else BitVec.ofNat 6 (s.T.toNat + 1)
      PHASE := if s.T.toNat = 63 then .accum else .round } :=
  (if_pos hp).trans (congrArg Host.Outcome.next (afterRound_of_phase hp))

theorem exec_acc_of_phase {s : State} (hp : s.PHASE = .accum) :
    exec .acc s = .next { s with
      S := some ((readS s).add (readR s)), T := 0, PHASE := phaseAfterAcc s.TAIL } :=
  if_pos hp

/-- Settles O24: in `INITW` the value of `S` is copied to `R`. -/
theorem initwCopiesTheRunningState : Obligations.InitwCopiesTheRunningState := by
  intro s v hp hS
  rw [exec_initw_of_phase hp, readS_of_some hS]

/-- Settles O25: `ROUND` puts one round of R140 in `R`, whose two temporaries are the written-out sums by
definition, and moves the sequencer on. -/
theorem roundMixesTheWorkingRegisters : Obligations.RoundMixesTheWorkingRegisters := by
  intro s a b c d e f g h w T1 T2 hp hR hW hT1 hT2
  have hround : roundRegs ⟨a, b, c, d, e, f, g, h⟩ (romK s.T.toNat) w
      = ⟨T1 + T2, a, b, c, d + T1, e, f, g⟩ := by
    rw [hT1, hT2]
    rfl
  rw [exec_round_of_phase hp, readR_of_some hR, schedWord_of_read hW, hround]

/-- Settles O26: `ACC` adds `R` into `S` element by element, and each `TAIL` has its next phase. -/
theorem accAccumulatesAndBranches : Obligations.AccAccumulatesAndBranches := by
  intro s s0 s1 s2 s3 s4 s5 s6 s7 a b c d e f g h hp hS hR
  rw [exec_acc_of_phase hp, readS_of_some hS, readR_of_some hR]
  cases s.TAIL <;> rfl

end Sys2Proof.Machine
end

section
/-! The host commands `START`, `PUSH`, `FINISH` and `READ` in the phases that enable them (spec
44_engine_and_commands.md rules R164 to R167). -/

namespace Sys2Proof.Machine

theorem startEnabled_eq_true_iff (p : Phase) :
    startEnabled p = true ↔ p = .idle ∨ p = .absorb ∨ p = .done := by
  cases p <;> simp [startEnabled]

theorem exec_start_of_enabled {s : State} (h : startEnabled s.PHASE = true) :
    exec .start s = .next { s.accept with
      S := some romIV, LEN := 0, N := 0, T := 0, TAIL := .none, PHASE := .absorb } :=
  if_pos h

/-- Both cases of `PUSH`, read off the value of `N`. -/
theorem exec_push_of_phase {s : State} (b : Byte) (hp : s.PHASE = .absorb) :
    exec (.push b) s = .next { s.accept with
      BUF := Memory.write s.BUF s.N.toNat b
      LEN := s.LEN + 8
      N := if s.N.toNat = 63 then 0 else BitVec.ofNat 6 (s.N.toNat + 1)
      T := if s.N.toNat = 63 then 0 else s.T
      PHASE := if s.N.toNat = 63 then .loadw else .absorb } := by
  have hfull : s.N.toNat = 63 ↔ s.N = 63 := BitVec.toNat_inj (y := 63)
  refine (if_pos hp).trans ?_
  simp only [hfull, ofNat_toNat_add_one]
  by_cases hN : s.N = 63
  · simp only [if_pos hN]
  · simp only [if_neg hN, ← hp, State.accept_T, State.accept_PHASE]

theorem exec_finish_of_phase {s : State} (hp : s.PHASE = .absorb) :
    exec .finish s = .next { s.accept with PHASE := .pad1, T := 0 } :=
  if_pos hp

theorem exec_read_of_phase {s : State} {i : BitVec 8} (hp : s.PHASE = .done) (hi : i.toNat ≤ 31) :
    exec (.read i) s = .next (s.respond (digestByte (readS s) i.toNat)) :=
  if_pos ⟨hp, hi⟩

theorem add_eight_eq_ofNat (len : BitVec 64) : len + 8 = BitVec.ofNat 64 ((len.toNat + 8) % 2 ^ 64) :=
  BitVec.eq_of_toNat_eq (by simp)

/-- The digest view as arithmetic: a shift to the right and a remainder (R167). -/
theorem digestByte_eq_ofNat (r : Regs8) (i : Nat) :
    digestByte r i = BitVec.ofNat 8 ((r.get (i / 4)).toNat / 2 ^ (8 * (3 - i % 4)) % 256) := by
  have hstart : 24 - 8 * (i % 4) = 8 * (3 - i % 4) := by omega
  refine BitVec.eq_of_toNat_eq ?_
  rw [digestByte, byte32, hstart, BitVec.extractLsb'_toNat, Nat.shiftRight_eq_div_pow, BitVec.toNat_ofNat,
    Nat.mod_mod]

/-- Settles O11: the three phases are those that enable `START`. -/
theorem startOpensAMessage : Obligations.StartOpensAMessage := fun s hp =>
  exec_start_of_enabled ((startEnabled_eq_true_iff s.PHASE).2 hp)

/-- Settles O12: the byte goes to `BUF[N]`, and the 64th byte of a block starts the engine. -/
theorem pushAppendsAByte : Obligations.PushAppendsAByte := by
  intro s b hp
  rw [exec_push_of_phase b hp, add_eight_eq_ofNat]
  rfl

/-- Settles O13: in `ABSORB` only the sequencer moves, and the command leaves the port. -/
theorem finishHandsOverToThePadder : Obligations.FinishHandsOverToThePadder := fun _ hp =>
  exec_finish_of_phase hp

/-- Settles O14: the response is the byte of the digest view, written out as arithmetic. -/
theorem readReturnsADigestByte : Obligations.ReadReturnsADigestByte := by
  intro s i r hp hi hS
  rw [exec_read_of_phase hp hi, readS_of_some hS, digestByte_eq_ofNat]
  rfl

end Sys2Proof.Machine
end

section
/-! Every selector decodes as its row of the opcode table says (spec 30_encoding.md rules R75 to R79, R82). -/

namespace Sys2Proof

/-- Settles O1: row by row; the two rows with an operand go by the opcode map of their fields. -/
theorem decodeOfEncodeIsTheInstruction : Obligations.DecodeOfEncodeIsTheInstruction := by
  intro i hi
  cases i with
  | push b =>
    rw [encode, decode_cmd_append]
    rfl
  | read arg =>
    have harg : arg.toNat < 32 := (and_readArgMask_eq_zero_iff arg).1 (by simpa [Instr.wellFormed] using hi)
    rw [encode, decode_cmd_append]
    simp [harg]
  | start | finish | stat | reset | pad1 | pad2 | ldw | exp | initw | round | acc => rfl

/-- Settles O3: each word is evaluated. -/
theorem writtenOutWordsDecode : Obligations.WrittenOutWordsDecode :=
  ⟨rfl, rfl, rfl, rfl, rfl, rfl, rfl, rfl, rfl, rfl, rfl⟩

theorem extractLsb'_five_three_eq_zero_iff (arg : BitVec 8) : arg.extractLsb' 5 3 = 0 ↔ arg.toNat < 32 := by
  decide +revert

/-- The reserved words by their two fields (R82). -/
theorem decode_cmd_append_reserved_iff (op : BitVec 4) (arg : BitVec 8) :
    decode (.cmd (op ++ arg)) = .error .reservedCommand ↔
      (op = 0 ∨ 6 ≤ op.toNat ∨ (op = 4 ∧ arg.extractLsb' 5 3 ≠ 0)) := by
  rw [decode_cmd_append, Ne, extractLsb'_five_three_eq_zero_iff]
  split_ifs with h1 h2 h3 h4 h5
  · simp [h1]
  · simp [h2]
  · simp [h3]
  · simp [h4]
  · simp [h5]
  · have hop : op = 0 ∨ op = 4 ∨ 6 ≤ op.toNat := by bv_omega
    simp only [true_iff]
    tauto

/-- A command word is an instruction of the host's or reserved. -/
theorem decode_cmd_error {c : BitVec 12} {r : Reject} (h : decode (.cmd c) = .error r) :
    r = .reservedCommand := by
  change decodeCmd c = _ at h
  unfold decodeCmd at h
  repeat' split at h
  all_goals cases h
  rfl

end Sys2Proof

namespace Sys2Proof.Machine

/-- The instructions a command word can decode to are the host's. -/
theorem decode_cmd_ok {c : BitVec 12} {i : Instr} (h : decode (.cmd c) = .ok i) :
    isMicroOperation i = false ∧ i ≠ .reset := by
  change decodeCmd c = _ at h
  unfold decodeCmd at h
  repeat' split at h
  all_goals cases h
  all_goals exact ⟨rfl, by simp⟩

theorem microPhase_eq_some_iff (i : Instr) (p : Phase) :
    microPhase i = some p ↔ decode (.uop (phaseCode p)) = .ok i := by
  cases p <;> cases i <;> simp [microPhase, phaseCode, decode, decodeUop]

end Sys2Proof.Machine
end

section
/-! What a step does on each agent's turn (spec 30_encoding.md rule R87, 60_exceptions.md rule R190), and the
one list of everything a step that answers a next state can have done. -/

namespace Sys2Proof.Machine

/-! ## The engine's selection -/

theorem decode_uop_of_microPhase {i : Instr} {p : Phase} (h : microPhase i = some p) :
    decode (.uop (phaseCode p)) = .ok i :=
  (microPhase_eq_some_iff i p).1 h

theorem decode_uop_of_not_busy {p : Phase} (h : flagBusy p = false) :
    decode (.uop (phaseCode p)) = .error .noEngineStep := by
  cases p with
  | idle | absorb | done => rfl
  | pad1 | pad2 | loadw | expand | initw | round | accum => cases h

theorem exists_microPhase_of_busy {p : Phase} (h : flagBusy p = true) : ∃ i, microPhase i = some p := by
  cases p with
  | idle | absorb | done => cases h
  | pad1 => exact ⟨.pad1, rfl⟩
  | pad2 => exact ⟨.pad2, rfl⟩
  | loadw => exact ⟨.ldw, rfl⟩
  | expand => exact ⟨.exp, rfl⟩
  | initw => exact ⟨.initw, rfl⟩
  | round => exact ⟨.round, rfl⟩
  | accum => exact ⟨.acc, rfl⟩

theorem busy_of_microPhase {i : Instr} {p : Phase} (h : microPhase i = some p) :
    flagBusy p = true ∧ isMicroOperation i = true := by
  cases i <;> cases h <;> exact ⟨rfl, rfl⟩

theorem exists_microPhase_of_isMicroOperation {i : Instr} (h : isMicroOperation i = true) :
    ∃ p, microPhase i = some p := by
  cases i with
  | pad1 | pad2 | ldw | exp | initw | round | acc => exact ⟨_, rfl⟩
  | start | push | finish | read | stat | reset => cases h

/-! ## The step on each turn -/

theorem step_of_selected {s : State} {sel : Selector} {i : Instr} (hs : s.selected = some sel)
    (hd : decode sel = .ok i) : step s = exec i s.endTurn := by
  simp [step, hs, hd]

theorem selected_rst {s : State} {r : BitVec 1} (h : s.turnNow = .rst r) : s.selected = some (.rst r) := by
  simp [State.selected, h]

theorem selected_engine {s : State} (h : s.turnNow = .engine) :
    s.selected = some (.uop (phaseCode s.PHASE)) := by
  simp [State.selected, h]

theorem selected_host {s : State} {c : BitVec 12} {rest : List (BitVec 12)} (h : s.turnNow = .host)
    (hc : s.cmds = c :: rest) : s.selected = some (.cmd c) := by
  simp [State.selected, h, hc]

theorem step_engine {s : State} {i : Instr} (h : s.turnNow = .engine) (hi : microPhase i = some s.PHASE) :
    step s = exec i s.endTurn :=
  step_of_selected (selected_engine h) (decode_uop_of_microPhase hi)

theorem step_engine_of_not_busy {s : State} (h : s.turnNow = .engine) (hb : flagBusy s.PHASE = false) :
    step s = .next s.endTurn := by
  simp [step, selected_engine h, decode_uop_of_not_busy hb, State.passTurn, h]

theorem step_host {s : State} {c : BitVec 12} {rest : List (BitVec 12)} {i : Instr} (h : s.turnNow = .host)
    (hc : s.cmds = c :: rest) (hi : decode (.cmd c) = .ok i) : step s = exec i s.endTurn :=
  step_of_selected (selected_host h hc) hi

theorem step_host_reserved {s : State} {c : BitVec 12} {rest : List (BitVec 12)} (h : s.turnNow = .host)
    (hc : s.cmds = c :: rest) (hr : decode (.cmd c) = .error .reservedCommand) :
    step s = .refused .reservedCommand := by
  simp [step, selected_host h hc, hr]

theorem turnNow_of_nil {s : State} (h : s.turns = []) :
    s.turnNow = if flagBusy s.PHASE = true then .engine else .host := by
  simp [State.turnNow, h]

theorem turnNow_of_cons {s : State} {a : Turn} {as : List Turn} (h : s.turns = a :: as) : s.turnNow = a := by
  simp [State.turnNow, h]

/-! ## Every step -/

/-- The turns on which no instruction runs and only the turn is used up. -/
def State.turnIsIdle (s : State) : Prop :=
  s.turnNow = .rst 0 ∨ (s.turnNow = .host ∧ s.cmds = []) ∨ (s.turnNow = .engine ∧ flagBusy s.PHASE = false)

theorem step_of_turnIsIdle {s : State} (h : s.turnIsIdle) : step s = .next s.endTurn := by
  obtain h | ⟨h, hc⟩ | ⟨h, hb⟩ := h
  · exact step_rst_zero h
  · exact step_host_nothing h hc
  · exact step_engine_of_not_busy h hb

/-- What a step does, by the agent that moves. -/
theorem step_by_turn (s : State) :
    (s.turnNow = .rst 1 ∧ step s = exec .reset s.endTurn) ∨
      (∃ i, s.turnNow = .engine ∧ microPhase i = some s.PHASE ∧ step s = exec i s.endTurn) ∨
      (∃ c rest i, s.turnNow = .host ∧ s.cmds = c :: rest ∧ decode (.cmd c) = .ok i ∧
        step s = exec i s.endTurn) ∨
      (s.turnNow = .withdraw ∧ step s = .next s.endTurn.accept) ∨
      (s.turnIsIdle ∧ step s = .next s.endTurn) ∨
      (step s = .refused .reservedCommand ∧ s.turnNow = .host ∧
        ∃ c rest, s.cmds = c :: rest ∧ decode (.cmd c) = .error .reservedCommand) := by
  have idle (h : s.turnIsIdle) : s.turnIsIdle ∧ step s = .next s.endTurn := ⟨h, step_of_turnIsIdle h⟩
  cases hturn : s.turnNow with
  | rst r =>
    obtain rfl | rfl := BitVec.eq_zero_or_eq_one r
    · exact .inr (.inr (.inr (.inr (.inl (idle (.inl hturn))))))
    · exact .inl ⟨rfl, step_rst_one hturn⟩
  | engine =>
    cases hb : flagBusy s.PHASE with
    | true =>
      obtain ⟨i, hi⟩ := exists_microPhase_of_busy hb
      exact .inr (.inl ⟨i, rfl, hi, step_engine hturn hi⟩)
    | false => exact .inr (.inr (.inr (.inr (.inl (idle (.inr (.inr ⟨hturn, hb⟩)))))))
  | host =>
    cases hc : s.cmds with
    | nil => exact .inr (.inr (.inr (.inr (.inl (idle (.inr (.inl ⟨hturn, hc⟩)))))))
    | cons c rest =>
      cases hd : decode (.cmd c) with
      | ok i => exact .inr (.inr (.inl ⟨c, rest, i, rfl, rfl, hd, step_host hturn hc hd⟩))
      | error r =>
        cases decode_cmd_error hd
        exact .inr (.inr (.inr (.inr (.inr ⟨step_host_reserved hturn hc hd, rfl, c, rest, rfl, hd⟩))))
  | withdraw => exact .inr (.inr (.inr (.inl ⟨rfl, step_withdraw hturn⟩)))

/-- Everything a step that answers a next state can have done. -/
theorem step_cases {s t : State} (h : step s = .next t) :
    (s.turnNow = .rst 1 ∧ exec .reset s.endTurn = .next t) ∨
      (∃ i, s.turnNow = .engine ∧ microPhase i = some s.PHASE ∧ exec i s.endTurn = .next t) ∨
      (∃ c rest i, s.turnNow = .host ∧ s.cmds = c :: rest ∧ decode (.cmd c) = .ok i ∧
        exec i s.endTurn = .next t) ∨
      (s.turnNow = .withdraw ∧ t = s.endTurn.accept) ∨
      (s.turnIsIdle ∧ t = s.endTurn) := by
  have hby := step_by_turn s
  rw [h] at hby
  simpa [eq_comm] using hby

/-! ## The statements about selection -/

theorem State.endTurn_eq_drop (s : State) : s.endTurn = { s with turns := s.turns.drop 1 } := by
  simp [State.endTurn]

/-- Settles O5: one clause for each kind of turn. -/
theorem stepRunsTheDecodedInstruction : Obligations.StepRunsTheDecodedInstruction := by
  intro s i
  refine ⟨fun r h hd => step_of_selected (selected_rst h) hd,
    fun h hd => step_engine h ((microPhase_eq_some_iff i s.PHASE).2 hd),
    fun c rest h hc hd => step_host h hc hd, fun h => ?_, step_host_nothing, step_rst_zero,
    s.endTurn_eq_drop, fun a as h => turnNow_of_cons h, turnNow_of_nil⟩
  rw [step_withdraw h, List.drop_one]
  rfl

/-- Settles O6: in a busy phase the engine runs the phase's micro-operation, and elsewhere its turn passes. -/
theorem phaseSelectsTheMicroOperation : Obligations.PhaseSelectsTheMicroOperation := by
  refine ⟨fun s h => ?_, rfl, rfl, rfl, rfl, rfl, rfl, rfl, rfl, rfl, rfl, by decide⟩
  cases hp : s.PHASE with
  | idle | absorb | done => exact step_engine_of_not_busy h (by rw [hp]; rfl)
  | pad1 | pad2 | loadw | expand | initw | round | accum => exact step_engine h (by rw [hp]; rfl)

end Sys2Proof.Machine
end

section
/-! The reset event, and where a command or a micro-operation waits (spec 70_reset_and_hazards.md rule R200,
44_engine_and_commands.md rule R169, 00_scope.md rule R13). -/

namespace Sys2Proof.Machine

/-! ## Reset -/

/-- Settles O7: each entry of the table is the field's value. -/
theorem resetStateIsTheTableOfR42 : Obligations.ResetStateIsTheTableOfR42 :=
  ⟨rfl, rfl, rfl, rfl, rfl, rfl, rfl, Memory.read_nil, Memory.read_nil, rfl, rfl, rfl, rfl⟩

/-- Settles O8: `RESET` answers in every state, with the fields of R200. -/
theorem resetStepClearsTheEngine : Obligations.ResetStepClearsTheEngine := fun _ =>
  ⟨_, rfl, rfl, rfl, rfl, rfl, rfl, rfl, rfl, Memory.read_nil, Memory.read_nil, rfl, rfl, rfl, rfl⟩

theorem withFetchWord_rst (s : State) (r : BitVec 1) :
    s.withFetchWord 1 r.toNat = { s with turns := .rst r :: s.turns } := by
  obtain rfl | rfl := BitVec.eq_zero_or_eq_one r <;> rfl

/-- Settles O9: the bit 1 runs `RESET` and the bit 0 only uses the turn up, on any turn and on a placed
one. -/
theorem resetWinsOverEverything : Obligations.ResetWinsOverEverything := by
  refine ⟨fun s h => ⟨_, step_rst_one h, rfl, rfl, rfl, rfl, rfl, rfl, rfl, rfl, rfl, rfl, rfl, rfl, rfl⟩, rfl,
    fun s h => ⟨_, step_rst_zero h, ⟨rfl, rfl, rfl, rfl, rfl, rfl, rfl, rfl, rfl, rfl⟩, rfl, rfl, ?_⟩,
    fun s => ⟨?_, ?_⟩⟩
  · rw [List.drop_one]
    rfl
  · exact (congrArg step (withFetchWord_rst s 1)).trans (step_rst_one rfl)
  · exact (congrArg step (withFetchWord_rst s 0)).trans (step_rst_zero rfl)

/-! ## Commands that wait -/

theorem startEnabled_eq_not_flagBusy (p : Phase) : startEnabled p = !flagBusy p := by
  cases p <;> rfl

theorem exec_start_waits {s : State} (h : flagBusy s.PHASE = true) : exec .start s = .next s :=
  if_neg (by simp [startEnabled_eq_not_flagBusy, h])

theorem exec_push_waits {s : State} (b : Byte) (h : s.PHASE ≠ .absorb) : exec (.push b) s = .next s :=
  if_neg h

theorem exec_finish_waits {s : State} (h : s.PHASE ≠ .absorb) : exec .finish s = .next s :=
  if_neg h

theorem exec_read_waits {s : State} {i : BitVec 8} (h : ¬(s.PHASE = .done ∧ i.toNat ≤ 31)) :
    exec (.read i) s = .next s :=
  if_neg h

/-- Settles O16: each command where its condition is false. -/
theorem commandsNotEnabledWait : Obligations.CommandsNotEnabledWait := fun _ b _ =>
  ⟨exec_start_waits, fun h => ⟨exec_push_waits b h, exec_finish_waits h⟩,
    fun h => exec_read_waits fun hread => h hread.1,
    fun h => exec_read_waits fun hread => Nat.not_le_of_lt h hread.2⟩

/-! ## Micro-operations that wait -/

theorem exec_micro_waits {s : State} {i : Instr} {p : Phase} (hi : microPhase i = some p) (h : s.PHASE ≠ p) :
    exec i s = .next s := by
  cases i with
  | pad1 | pad2 | ldw | exp | initw | round | acc =>
    cases hi
    exact if_neg h
  | start | push | finish | read | stat | reset => cases hi

/-- Settles O27: the phase is the condition of every micro-operation. -/
theorem microOperationsDoNothingOutsideTheirPhase : Obligations.MicroOperationsDoNothingOutsideTheirPhase :=
  fun _ _ _ hi h => exec_micro_waits hi h

/-- Settles O30: at such a position the second condition of `LDW` and `EXP` fails. -/
theorem positionsOutsideTheTableFault : Obligations.PositionsOutsideTheTableFault := fun _ =>
  ⟨fun hp hT => (if_pos hp).trans (if_neg (Nat.not_lt_of_le hT)),
    fun hp hT => (if_pos hp).trans (if_neg (Nat.not_le_of_lt (Nat.lt_succ_of_le hT)))⟩

/-- In a busy phase a command other than `STAT` waits. -/
theorem exec_command_waits_of_busy {s : State} {i : Instr} (hb : flagBusy s.PHASE = true)
    (hi : isMicroOperation i = false) (hstat : i ≠ .stat) (hreset : i ≠ .reset) : exec i s = .next s := by
  have hphase (p : Phase) (hp : flagBusy p = false) : s.PHASE ≠ p := by
    rintro rfl
    exact Bool.noConfusion (hp.symm.trans hb)
  cases i with
  | start => exact exec_start_waits hb
  | push b => exact exec_push_waits b (hphase .absorb rfl)
  | finish => exact exec_finish_waits (hphase .absorb rfl)
  | read a => exact exec_read_waits fun hread => hphase .done rfl hread.1
  | stat => exact absurd rfl hstat
  | reset => exact absurd rfl hreset
  | pad1 | pad2 | ldw | exp | initw | round | acc => cases hi

theorem exec_micro_waits_of_not_busy {s : State} {i : Instr} (hb : flagBusy s.PHASE = false)
    (hi : isMicroOperation i = true) : exec i s = .next s := by
  obtain ⟨p, hp⟩ := exists_microPhase_of_isMicroOperation hi
  refine exec_micro_waits hp ?_
  rintro rfl
  exact Bool.noConfusion (hb.symm.trans (busy_of_microPhase hp).1)

/-- Settles O37: in a busy phase the host waits, and in every other phase the engine does. -/
theorem hostAndEngineAreNeverBothEnabled : Obligations.HostAndEngineAreNeverBothEnabled := fun _ _ =>
  ⟨exec_command_waits_of_busy, exec_micro_waits_of_not_busy⟩

end Sys2Proof.Machine
end

section
/-! What each instruction leaves unchanged (the frames of spec 41_padder.md to 44_engine_and_commands.md). -/

namespace Sys2Proof.Machine

/-- A micro-operation touches nothing at the ports, and not `LEN`. -/
theorem exec_micro_frame {s t : State} {i : Instr} (hi : isMicroOperation i = true) (h : exec i s = .next t) :
    t.LEN = s.LEN ∧ t.cmds = s.cmds ∧ t.turns = s.turns ∧ t.resp = s.resp ∧ t.resets = s.resets := by
  cases i with
  | pad1 => obtain ⟨-, rfl⟩ | ⟨-, rfl⟩ := execPad1_next h <;> simp
  | pad2 => obtain ⟨-, rfl⟩ | ⟨-, rfl⟩ := execPad2_next h <;> simp
  | ldw => obtain ⟨-, rfl⟩ | ⟨-, -, rfl⟩ := execLdw_next h <;> simp
  | exp => obtain ⟨-, rfl⟩ | ⟨-, -, rfl⟩ := execExp_next h <;> simp
  | initw => obtain ⟨-, rfl⟩ | ⟨-, rfl⟩ := execInitw_next h <;> simp
  | round => obtain ⟨-, rfl⟩ | ⟨-, rfl⟩ := execRound_next h <;> simp
  | acc => obtain ⟨-, rfl⟩ | ⟨-, rfl⟩ := execAcc_next h <;> simp
  | start | push | finish | read | stat | reset => cases hi

theorem exec_pad1_frame {s t : State} (h : exec .pad1 s = .next t) :
    (∀ a, a < s.N.toNat ∨ 64 ≤ a → Memory.read t.BUF a = Memory.read s.BUF a) ∧ t.W = s.W ∧ t.S = s.S ∧
      t.R = s.R := by
  obtain ⟨-, rfl⟩ | ⟨-, rfl⟩ := execPad1_next h
  · simp
  · exact ⟨fun a ha => read_pad1_outside s.BUF s.LEN s.N.isLt ha, rfl, rfl, rfl⟩

theorem exec_pad2_frame {s t : State} (h : exec .pad2 s = .next t) :
    (∀ a, 64 ≤ a → Memory.read t.BUF a = Memory.read s.BUF a) ∧ t.W = s.W ∧ t.S = s.S ∧ t.R = s.R ∧
      t.N = s.N := by
  obtain ⟨-, rfl⟩ | ⟨-, ht⟩ := execPad2_next h
  · simp
  · have hBUF : t.BUF = Memory.writeList s.BUF 0 (pad2Bytes s.LEN) := by rw [ht]
    refine ⟨fun a ha => ?_, by rw [ht], by rw [ht], by rw [ht], by rw [ht]⟩
    rw [hBUF, read_pad2_outside s.BUF s.LEN a ha]

theorem exec_scheduler_frame {s t : State} {i : Instr} (hi : i = .ldw ∨ i = .exp) (h : exec i s = .next t) :
    t.BUF = s.BUF ∧ (∀ j, j ≠ s.T.toNat → Memory.read t.W j = Memory.read s.W j) ∧ t.S = s.S ∧ t.R = s.R ∧
      t.N = s.N ∧ t.TAIL = s.TAIL := by
  have hother (v : Word) (j : Nat) (hj : j ≠ s.T.toNat) := Memory.read_write_other (m := s.W) v hj
  obtain rfl | rfl := hi
  · obtain ⟨-, rfl⟩ | ⟨-, -, rfl⟩ := execLdw_next h
    · simp
    · simpa using hother _
  · obtain ⟨-, rfl⟩ | ⟨-, -, rfl⟩ := execExp_next h
    · simp
    · simpa using hother _

theorem exec_compressor_frame {s t : State} {i : Instr} (hi : i = .initw ∨ i = .round ∨ i = .acc)
    (h : exec i s = .next t) : t.BUF = s.BUF ∧ t.W = s.W ∧ t.N = s.N ∧ t.TAIL = s.TAIL := by
  obtain rfl | rfl | rfl := hi
  · obtain ⟨-, rfl⟩ | ⟨-, rfl⟩ := execInitw_next h <;> simp
  · obtain ⟨-, rfl⟩ | ⟨-, rfl⟩ := execRound_next h <;> simp
  · obtain ⟨-, rfl⟩ | ⟨-, rfl⟩ := execAcc_next h <;> simp

theorem exec_initw_round_keep_S {s t : State} {i : Instr} (hi : i = .initw ∨ i = .round)
    (h : exec i s = .next t) : t.S = s.S := by
  obtain rfl | rfl := hi
  · obtain ⟨-, rfl⟩ | ⟨-, rfl⟩ := execInitw_next h <;> simp
  · obtain ⟨-, rfl⟩ | ⟨-, rfl⟩ := execRound_next h <;> simp

theorem exec_acc_keeps_R {s t : State} (h : exec .acc s = .next t) : t.R = s.R := by
  obtain ⟨-, rfl⟩ | ⟨-, rfl⟩ := execAcc_next h <;> rfl

/-- Settles O28: the frames above; an array left as it is reads the same at every index. -/
theorem microOperationFrames : Obligations.MicroOperationFrames := by
  refine fun s t => ⟨fun i hi h => exec_micro_frame hi h, fun h => ?_, fun h => ?_, fun i hi h => ?_,
    fun i hi h => ?_, fun i hi h => exec_initw_round_keep_S hi h, exec_acc_keeps_R⟩
  · obtain ⟨hBUF, hW, hregs⟩ := exec_pad1_frame h
    exact ⟨hBUF, fun j => by rw [hW], hregs⟩
  · obtain ⟨hBUF, hW, hregs⟩ := exec_pad2_frame h
    exact ⟨hBUF, fun j => by rw [hW], hregs⟩
  · obtain ⟨hBUF, hW, hregs⟩ := exec_scheduler_frame hi h
    exact ⟨fun a => by rw [hBUF], hW, hregs⟩
  · obtain ⟨hBUF, hW, hregs⟩ := exec_compressor_frame hi h
    exact ⟨fun a => by rw [hBUF], fun j => by rw [hW], hregs⟩

/-! ## Commands -/

theorem State.SameEngine.refl (s : State) : s.SameEngine s := ⟨rfl, rfl, rfl, rfl, rfl, rfl, rfl, rfl, rfl, rfl⟩

theorem State.SameEngine.trans {s t u : State} (h : s.SameEngine t) (h' : t.SameEngine u) : s.SameEngine u := by
  simp_all [State.SameEngine]

theorem State.SameEngine.phase_eq {s t : State} (h : s.SameEngine t) : t.PHASE = s.PHASE := h.1

theorem State.SameEngine.index_eq {s t : State} (h : s.SameEngine t) : t.T = s.T := h.2.2.2.1

theorem State.SameEngine.chain_eq {s t : State} (h : s.SameEngine t) : t.S = s.S := h.2.2.2.2.2.1

theorem State.SameEngine.buf_eq {s t : State} (h : s.SameEngine t) : t.BUF = s.BUF := h.2.2.2.2.2.2.2.2.1

/-- States of the same engine differ at the ports only. -/
theorem State.SameEngine.eq_with_ports {s t : State} (h : s.SameEngine t) :
    t = { s with cmds := t.cmds, turns := t.turns, resp := t.resp } := by
  obtain ⟨hp, ha, hn, ht, hl, hs, hr, hw, hb, hc⟩ := h
  cases t
  simp_all

theorem State.sameEngine_ports (s : State) (cmds : List (BitVec 12)) (turns : List Turn) (resp : List Byte) :
    s.SameEngine { s with cmds := cmds, turns := turns, resp := resp } :=
  ⟨rfl, rfl, rfl, rfl, rfl, rfl, rfl, rfl, rfl, rfl⟩

/-- `READ` and `STAT` either wait or respond with a byte, and nothing of the engine changes. -/
theorem exec_response {s t : State} {i : Instr} (hi : i = .stat ∨ ∃ a, i = .read a) (h : exec i s = .next t) :
    s.SameEngine t ∧ t.turns = s.turns := by
  obtain rfl | ⟨a, rfl⟩ := hi
  · cases execStat_next h
    exact ⟨.refl s, rfl⟩
  · obtain ⟨-, rfl⟩ | ⟨-, -, rfl⟩ := execRead_next h <;> exact ⟨.refl _, rfl⟩

/-- Settles O17: in `ABSORB` the one write of `PUSH`, and elsewhere nothing. -/
theorem pushFrame : Obligations.PushFrame := by
  intro s t b h
  obtain ⟨hp, rfl⟩ | ⟨hp, -, rfl⟩ | ⟨hp, -, rfl⟩ := execPush_next h
  · simp [hp]
  all_goals
    refine ⟨fun _ => Memory.read_write_same _ _ _, fun a ha => Memory.read_write_other _ ?_, fun _ => rfl, rfl,
      rfl, rfl, rfl, rfl, rfl⟩
    exact ha.resolve_left (not_not_intro hp)

/-- Settles O18: command by command. -/
theorem storingNothingCommandsFrame : Obligations.StoringNothingCommandsFrame := by
  refine fun s t arg => ⟨fun h => ?_, fun h => ?_, exec_response (.inr ⟨arg, rfl⟩), exec_response (.inl rfl)⟩
  · obtain ⟨-, rfl⟩ | ⟨-, rfl⟩ := execStart_next h <;> simp
  · obtain ⟨-, rfl⟩ | ⟨-, rfl⟩ := execFinish_next h <;> simp

/-- What `READ` and `STAT` respond depends on the engine alone. -/
theorem exec_response_repeats {s t u : State} {i : Instr} (hi : i = .stat ∨ ∃ a, i = .read a)
    (h : exec i s = .next t) (h' : exec i t = .next u) :
    (s.resp = t.resp ∧ t.resp = u.resp) ∨ ∃ b, t.resp = s.resp ++ [b] ∧ u.resp = t.resp ++ [b] := by
  obtain rfl | ⟨a, rfl⟩ := hi
  · cases execStat_next h
    cases execStat_next h'
    exact .inr ⟨_, rfl, rfl⟩
  · obtain ⟨hwait, rfl⟩ | ⟨hp, ha, rfl⟩ := execRead_next h
    · obtain ⟨-, rfl⟩ | ⟨hp, ha, -⟩ := execRead_next h'
      · exact .inl ⟨rfl, rfl⟩
      · exact absurd ⟨hp, ha⟩ hwait
    · obtain ⟨hwait, -⟩ | ⟨-, -, rfl⟩ := execRead_next h'
      · exact absurd ⟨hp, ha⟩ hwait
      · exact .inr ⟨_, rfl, rfl⟩

/-- Settles O19: `READ` and `STAT` change nothing they depend on, and `START` is enabled again in `ABSORB`,
where it writes what stands there. -/
theorem readsRepeatAndStartIsIdempotent : Obligations.ReadsRepeatAndStartIsIdempotent := by
  refine ⟨fun s t u i hi h h' => ?_, fun s t u hs h h' => ?_⟩
  · obtain ⟨hst, -⟩ := exec_response hi h
    obtain ⟨htu, -⟩ := exec_response hi h'
    exact ⟨hst, hst.trans htu, exec_response_repeats hi h h'⟩
  · cases (exec_start_of_enabled hs).symm.trans h
    cases h'
    exact .refl _

/-- Settles O4: the reserved words by their fields; on a reset's or the engine's turn the ports stay, and the
host's turn refuses. -/
theorem reservedWordsAreNeverAccepted : Obligations.ReservedWordsAreNeverAccepted := by
  refine ⟨decode_cmd_append_reserved_iff, fun s c rest hc hr => ⟨fun h => step_host_reserved h hc hr,
    fun t h hturn => ?_⟩⟩
  obtain ⟨-, h⟩ | ⟨i, -, hi, h⟩ | ⟨c', rest', i, -, hc', hi, -⟩ | ⟨hw, -⟩ | ⟨-, rfl⟩ := step_cases h
  · cases h
    exact ⟨rfl, rfl⟩
  · obtain ⟨-, hcmds, -, hresp, -⟩ := exec_micro_frame (busy_of_microPhase hi).2 h
    exact ⟨hcmds, hresp⟩
  · cases hc.symm.trans hc'
    cases hr.symm.trans hi
  · exact absurd hw hturn
  · exact ⟨rfl, rfl⟩

end Sys2Proof.Machine
end

section
/-! Which elements of an array hold a value after a write. -/

namespace Sys2Proof.Machine

variable {w : Nat}

theorem Memory.holdsBelow_zero (m : List (Nat × BitVec w)) : Memory.holdsBelow 0 m :=
  fun _ ha => absurd ha (Nat.not_lt_zero _)

theorem Memory.holdsBelow_write_next {n : Nat} {m : List (Nat × BitVec w)} (v : BitVec w)
    (h : Memory.holdsBelow n m) : Memory.holdsBelow (n + 1) (Memory.write m n v) := by
  intro a ha
  rw [Memory.read_write]
  split
  · rfl
  · exact h a (by omega)

theorem Memory.holdsBelow_writeList_end {n k : Nat} {m : List (Nat × BitVec w)} {vs : List (BitVec w)}
    (h : Memory.holdsBelow n m) (hk : n + vs.length = k) : Memory.holdsBelow k (Memory.writeList m n vs) := by
  intro a ha
  by_cases hold : a < n
  · rw [Memory.read_writeList_outside m (.inl hold)]
    exact h a hold
  · obtain ⟨i, rfl⟩ := Nat.exists_eq_add_of_le (Nat.le_of_not_lt hold)
    rw [Memory.read_writeList_of_getElem? m n (List.getElem?_eq_getElem (by omega))]
    rfl

end Sys2Proof.Machine
end

section
/-! The invariant: it holds at reset, and every instruction keeps it (spec 10_state.md rule R38). -/

namespace Sys2Proof.Machine

/-- The ports are not in the invariant. -/
theorem State.Inv.of_sameEngine {s t : State} (h : s.Inv) (hst : s.SameEngine t) : t.Inv := by
  rw [hst.eq_with_ports]
  exact ⟨h.bufCanonical, h.wCanonical, h.index, h.tail, h.fill, h.wholeBytes, h.fullBlock, h.running, h.storage⟩

theorem State.Inv.endTurn {s : State} (h : s.Inv) : s.endTurn.Inv := h.of_sameEngine (s.sameEngine_ports _ _ _)

/-- Settles O31. -/
theorem resetStateSatisfiesTheInvariant : Obligations.ResetStateSatisfiesTheInvariant where
  bufCanonical := rfl
  wCanonical := rfl
  index := rfl
  tail := rfl
  fill := rfl
  wholeBytes := rfl
  fullBlock := fun hb => nomatch hb
  running := fun hp => absurd rfl hp
  storage := trivial

theorem toNat_ofNat_of_lt {n : Nat} (hn : n < 64) : (BitVec.ofNat 6 n).toNat = n :=
  (BitVec.toNat_ofNat n 6).trans (Nat.mod_eq_of_lt hn)

/-- The fill level after one more byte. -/
theorem fill_push {n : BitVec 6} {len : BitVec 64} (hn : n.toNat = len.toNat / 8 % 64)
    (hbytes : len.toNat % 8 = 0) :
    (len + 8).toNat % 8 = 0 ∧ (len + 8).toNat / 8 % 64 = (n.toNat + 1) % 64 := by
  have hadd : (len + 8).toNat = (len.toNat + 8) % 2 ^ 64 := BitVec.toNat_add len 8
  omega

/-- The five phases in which a block is processed. -/
def isBlockPhase : Phase → Bool
  | .loadw => true
  | .expand => true
  | .initw => true
  | .round => true
  | .accum => true
  | .idle => false
  | .absorb => false
  | .pad1 => false
  | .pad2 => false
  | .done => false

/-- What the invariant says in all of these five phases. -/
theorem State.Inv.of_isBlockPhase {s : State} (h : s.Inv) (hp : isBlockPhase s.PHASE = true) :
    s.N = 0 ∧ (s.TAIL = .none → s.LEN.toNat / 8 % 64 = 0) ∧ s.S.isSome = true := by
  obtain ⟨-, -, -, -, hfill, -, hfull, hrun, -⟩ := h
  cases hphase : s.PHASE with
  | loadw | expand | initw | round | accum =>
    rw [hphase] at hfill hfull hrun
    exact ⟨hfill, hfull rfl (by simp), hrun (by simp)⟩
  | idle | absorb | pad1 | pad2 | done =>
    rw [hphase] at hp
    cases hp

/-- In these phases the invariant is that, and the clauses on `T` and on storage. -/
theorem State.inv_of_isBlockPhase {s : State} (hp : isBlockPhase s.PHASE = true)
    (hBUF : Memory.wf 64 s.BUF = true) (hW : Memory.wf 64 s.W = true) (hbytes : s.LEN.toNat % 8 = 0)
    (hblock : s.N = 0 ∧ (s.TAIL = .none → s.LEN.toNat / 8 % 64 = 0) ∧ s.S.isSome = true)
    (hindex : indexFits s.PHASE s.T) (hstore : storageFits s) : s.Inv := by
  obtain ⟨hN, hfull, hS⟩ := hblock
  obtain ⟨htail, hfill⟩ : tailFits s.PHASE s.TAIL ∧ fillFits s.PHASE s.N s.LEN := by
    cases hphase : s.PHASE with
    | loadw | expand | initw | round | accum => exact ⟨trivial, hN⟩
    | idle | absorb | pad1 | pad2 | done =>
      rw [hphase] at hp
      cases hp
  exact ⟨hBUF, hW, hindex, htail, hfill, hbytes, fun _ _ => hfull, fun _ => hS, hstore⟩

section Instructions

variable {s t : State} (h : s.Inv)

include h

theorem exec_start_keeps_inv (hx : exec .start s = .next t) : t.Inv := by
  obtain ⟨-, rfl⟩ | ⟨-, rfl⟩ := execStart_next hx
  · exact h
  · exact {
      bufCanonical := h.bufCanonical
      wCanonical := h.wCanonical
      index := rfl
      tail := rfl
      fill := by simp [fillFits]
      wholeBytes := rfl
      fullBlock := fun hb => nomatch hb
      running := fun _ => rfl
      storage := Memory.holdsBelow_zero _ }

theorem exec_push_keeps_inv {b : Byte} (hx : exec (.push b) s = .next t) : t.Inv := by
  by_cases hp : s.PHASE = .absorb
  · obtain ⟨hBUF, hW, hindex, htail, hfill, hbytes, -, hrun, hstore⟩ := h
    rw [hp] at hindex htail hfill
    have hS : s.S.isSome = true := hrun (by simp [hp])
    have hbelow : Memory.holdsBelow s.N.toNat s.BUF := by simpa only [storageFits, hp] using hstore
    obtain ⟨hbytes', hfill'⟩ := fill_push hfill hbytes
    have hbuf : Memory.wf 64 (Memory.write s.BUF s.N.toNat b) = true := Memory.wf_write b hBUF s.N.isLt
    have hholds := Memory.holdsBelow_write_next b hbelow
    cases (exec_push_of_phase b hp).symm.trans hx
    by_cases hN : s.N.toNat = 63
    · simp only [hN, if_true] at hfill' hbuf hholds ⊢
      exact ⟨hbuf, hW, Nat.zero_le _, trivial, rfl, hbytes', fun _ _ _ => hfill', fun _ => hS,
        ⟨hholds, Memory.holdsBelow_zero _⟩⟩
    · have hlt : s.N.toNat + 1 < 64 := by omega
      have hnext : (BitVec.ofNat 6 (s.N.toNat + 1)).toNat = s.N.toNat + 1 := toNat_ofNat_of_lt hlt
      simp only [hN, if_false]
      refine ⟨hbuf, hW, hindex, htail, ?_, hbytes', (fun hb => nomatch hb), fun _ => hS, ?_⟩
      · simp only [fillFits, hnext, hfill', Nat.mod_eq_of_lt hlt]
      · simpa only [storageFits, hnext] using hholds
  · cases (exec_push_waits b hp).symm.trans hx
    exact h

theorem exec_finish_keeps_inv (hx : exec .finish s = .next t) : t.Inv := by
  obtain ⟨-, rfl⟩ | ⟨hp, rfl⟩ := execFinish_next hx
  · exact h
  · obtain ⟨hBUF, hW, -, htail, hfill, hbytes, -, hrun, hstore⟩ := h
    rw [hp] at htail hfill
    exact ⟨hBUF, hW, rfl, htail, hfill, hbytes, fun _ hne => absurd rfl hne, fun _ => hrun (by simp [hp]),
      by simpa [storageFits, hp] using hstore⟩

theorem exec_pad1_keeps_inv (hx : exec .pad1 s = .next t) : t.Inv := by
  obtain ⟨-, rfl⟩ | ⟨hp, rfl⟩ := execPad1_next hx
  · exact h
  · have hlen := pad1Bytes_length s.LEN s.N.isLt
    have hbelow : Memory.holdsBelow s.N.toNat s.BUF := by simpa only [storageFits, hp] using h.storage
    refine State.inv_of_isBlockPhase rfl (Memory.wf_writeList _ h.bufCanonical hlen.le) h.wCanonical
      h.wholeBytes ⟨rfl, fun hk => ?_, h.running (by simp [hp])⟩ (Nat.zero_le _)
      ⟨Memory.holdsBelow_writeList_end hbelow hlen, Memory.holdsBelow_zero _⟩
    dsimp only at hk
    split at hk <;> cases hk

theorem exec_pad2_keeps_inv (hx : exec .pad2 s = .next t) : t.Inv := by
  obtain ⟨-, rfl⟩ | ⟨hp, rfl⟩ := execPad2_next hx
  · exact h
  · have hlen : 0 + (pad2Bytes s.LEN).length = 64 := rfl
    have hfill : s.N = 0 := by simpa only [fillFits, hp] using h.fill
    have hwf := Memory.wf_writeList _ h.bufCanonical hlen.le
    have hholds := Memory.holdsBelow_writeList_end (Memory.holdsBelow_zero s.BUF) hlen
    generalize Memory.writeList s.BUF 0 (pad2Bytes s.LEN) = buf at hwf hholds
    exact State.inv_of_isBlockPhase rfl hwf h.wCanonical h.wholeBytes
      ⟨hfill, fun hk => (nomatch hk), h.running (by simp [hp])⟩ (Nat.zero_le _)
      ⟨hholds, Memory.holdsBelow_zero _⟩

theorem exec_ldw_keeps_inv (hx : exec .ldw s = .next t) : t.Inv := by
  by_cases hp : s.PHASE = .loadw
  · have hindex : s.T.toNat ≤ 15 := by simpa only [indexFits, hp] using h.index
    obtain ⟨hbelow, hwords⟩ : Memory.holdsBelow 64 s.BUF ∧ Memory.holdsBelow s.T.toNat s.W := by
      simpa only [storageFits, hp] using h.storage
    have hblock := h.of_isBlockPhase (by rw [hp]; rfl)
    have hholds := Memory.holdsBelow_write_next (bufWord s (4 * s.T.toNat)) hwords
    have hwf := Memory.wf_write (bufWord s (4 * s.T.toNat)) h.wCanonical s.T.isLt
    have hnext : (BitVec.ofNat 6 (s.T.toNat + 1)).toNat = s.T.toNat + 1 := toNat_ofNat_of_lt (by omega)
    cases (exec_ldw_of_phase hp hindex).symm.trans hx
    rw [← hnext] at hholds
    by_cases hT : s.T.toNat = 15
    · simp only [if_pos hT]
      exact State.inv_of_isBlockPhase rfl h.bufCanonical hwf h.wholeBytes hblock (by simp [indexFits, hT])
        hholds
    · simp only [if_neg hT]
      exact State.inv_of_isBlockPhase rfl h.bufCanonical hwf h.wholeBytes hblock
        (by simp only [indexFits, hnext]; omega) ⟨hbelow, hholds⟩
  · cases (exec_micro_waits (i := .ldw) rfl hp).symm.trans hx
    exact h

theorem exec_exp_keeps_inv (hx : exec .exp s = .next t) : t.Inv := by
  by_cases hp : s.PHASE = .expand
  · have hindex : 16 ≤ s.T.toNat := by simpa only [indexFits, hp] using h.index
    have hwords : Memory.holdsBelow s.T.toNat s.W := by simpa only [storageFits, hp] using h.storage
    have hblock := h.of_isBlockPhase (by rw [hp]; rfl)
    have hholds := Memory.holdsBelow_write_next (nextSchedWord s s.T.toNat) hwords
    have hwf := Memory.wf_write (nextSchedWord s s.T.toNat) h.wCanonical s.T.isLt
    cases (exec_exp_of_phase hp hindex).symm.trans hx
    by_cases hT : s.T.toNat = 63
    · simp only [hT, if_true] at hwf hholds ⊢
      exact State.inv_of_isBlockPhase rfl h.bufCanonical hwf h.wholeBytes hblock rfl hholds
    · have hnext : (BitVec.ofNat 6 (s.T.toNat + 1)).toNat = s.T.toNat + 1 := toNat_ofNat_of_lt (by omega)
      rw [← hnext] at hholds
      simp only [if_neg hT]
      exact State.inv_of_isBlockPhase rfl h.bufCanonical hwf h.wholeBytes hblock
        (by simp only [indexFits, hnext]; omega) hholds
  · cases (exec_micro_waits (i := .exp) rfl hp).symm.trans hx
    exact h

theorem exec_initw_keeps_inv (hx : exec .initw s = .next t) : t.Inv := by
  obtain ⟨-, rfl⟩ | ⟨hp, rfl⟩ := execInitw_next hx
  · exact h
  · have hwords : Memory.holdsBelow 64 s.W := by simpa only [storageFits, hp] using h.storage
    exact State.inv_of_isBlockPhase rfl h.bufCanonical h.wCanonical h.wholeBytes
      (h.of_isBlockPhase (by rw [hp]; rfl)) trivial ⟨hwords, rfl⟩

theorem exec_round_keeps_inv (hx : exec .round s = .next t) : t.Inv := by
  by_cases hp : s.PHASE = .round
  · obtain ⟨hwords, -⟩ : Memory.holdsBelow 64 s.W ∧ s.R.isSome = true := by
      simpa only [storageFits, hp] using h.storage
    have hblock := h.of_isBlockPhase (by rw [hp]; rfl)
    cases (exec_round_of_phase hp).symm.trans hx
    by_cases hT : s.T.toNat = 63
    · simp only [hT, if_true]
      exact State.inv_of_isBlockPhase rfl h.bufCanonical h.wCanonical h.wholeBytes hblock rfl ⟨hwords, rfl⟩
    · simp only [if_neg hT]
      exact State.inv_of_isBlockPhase rfl h.bufCanonical h.wCanonical h.wholeBytes hblock trivial
        ⟨hwords, rfl⟩
  · cases (exec_micro_waits (i := .round) rfl hp).symm.trans hx
    exact h

theorem exec_acc_keeps_inv (hx : exec .acc s = .next t) : t.Inv := by
  obtain ⟨-, rfl⟩ | ⟨hp, rfl⟩ := execAcc_next hx
  · exact h
  · obtain ⟨hN, hfull, -⟩ := h.of_isBlockPhase (by rw [hp]; rfl)
    have hzero : s.N.toNat = 0 := congrArg BitVec.toNat hN
    cases hk : s.TAIL with
    | none =>
      refine ⟨h.bufCanonical, h.wCanonical, rfl, rfl, ?_, h.wholeBytes, (fun hb => nomatch hb), fun _ => rfl, ?_⟩
      · exact hzero.trans (hfull hk).symm
      · intro a ha
        exact absurd (hzero ▸ ha) (Nat.not_lt_zero a)
    | more =>
      exact ⟨h.bufCanonical, h.wCanonical, rfl, rfl, hN, h.wholeBytes, (fun _ _ hnone => nomatch hnone),
        fun _ => rfl, trivial⟩
    | last =>
      exact ⟨h.bufCanonical, h.wCanonical, rfl, rfl, hN, h.wholeBytes, (fun hb => nomatch hb), fun _ => rfl,
        trivial⟩

theorem exec_keeps_inv {i : Instr} (hx : exec i s = .next t) : t.Inv := by
  cases i with
  | start => exact exec_start_keeps_inv h hx
  | push b => exact exec_push_keeps_inv h hx
  | finish => exact exec_finish_keeps_inv h hx
  | read a => exact h.of_sameEngine (exec_response (.inr ⟨a, rfl⟩) hx).1
  | stat => exact h.of_sameEngine (exec_response (.inl rfl) hx).1
  | reset =>
    cases hx
    exact ⟨rfl, rfl, rfl, rfl, rfl, rfl, (fun hb => nomatch hb), (fun hp => absurd rfl hp), trivial⟩
  | pad1 => exact exec_pad1_keeps_inv h hx
  | pad2 => exact exec_pad2_keeps_inv h hx
  | ldw => exact exec_ldw_keeps_inv h hx
  | exp => exact exec_exp_keeps_inv h hx
  | initw => exact exec_initw_keeps_inv h hx
  | round => exact exec_round_keeps_inv h hx
  | acc => exact exec_acc_keeps_inv h hx

end Instructions

/-- Settles O32: an instruction keeps the invariant, and the ports are not in it. -/
theorem everyStepKeepsTheInvariant : Obligations.EveryStepKeepsTheInvariant := by
  intro s t h hstep
  obtain ⟨-, hx⟩ | ⟨i, -, -, hx⟩ | ⟨c, rest, i, -, -, -, hx⟩ | ⟨-, rfl⟩ | ⟨-, rfl⟩ := step_cases hstep
  · exact exec_keeps_inv h.endTurn hx
  · exact exec_keeps_inv h.endTurn hx
  · exact exec_keeps_inv h.endTurn hx
  · exact h.of_sameEngine (s.sameEngine_ports _ _ _)
  · exact h.endTurn

end Sys2Proof.Machine
end

section
/-! Runs from reset, and reads of storage that holds no value (spec 10_state.md rules R38, R43, R44). -/

namespace Sys2Proof.Machine

/-! ## The reachable states -/

theorem State.inv_of_reachable {s : State} (h : Reachable s) : s.Inv := by
  induction h with
  | reset cmds turns resp =>
    exact resetStateSatisfiesTheInvariant.of_sameEngine (State.sameEngine_ports _ _ _ _)
  | step _ hstep ih => exact everyStepKeepsTheInvariant _ _ ih hstep

/-- Settles O33: the clauses of the invariant, which every reachable state satisfies, phase by phase. -/
theorem reachableStatesSatisfyRule38 : Obligations.ReachableStatesSatisfyRule38 := by
  intro s hs
  obtain ⟨-, -, hindex, htail, hfill, hbytes, -, hrun, hstore⟩ := State.inv_of_reachable hs
  simp only [storageFits, Memory.holdsBelow] at hstore
  simp only [← Option.isSome_iff_exists]
  cases hp : s.PHASE <;> simp_all [indexFits, tailFits, fillFits]

/-! ## No read of storage without a value -/

theorem noValueReads_eq_nil_iff {i : Instr} {s : State} :
    noValueReads i s = [] ↔ ∀ e ∈ elementsRead i s, s.holds e = true := by
  simp [noValueReads, List.filter_eq_nil_iff]

theorem State.Inv.noValueReads_eq_nil {s : State} (h : s.Inv) (i : Instr) : noValueReads i s = [] := by
  have hS : s.PHASE ≠ .idle → s.S.isSome = true := h.running
  have hstore := h.storage
  rw [noValueReads_eq_nil_iff]
  intro e he
  cases i with
  | start | push | finish | stat | reset | pad1 | pad2 => cases he
  | read a =>
    obtain ⟨⟨hp, -⟩, he⟩ := List.mem_ite_nil_right.1 he
    cases List.mem_singleton.1 he
    exact hS (by simp [hp])
  | ldw =>
    obtain ⟨⟨hp, hT⟩, he⟩ := List.mem_ite_nil_right.1 he
    obtain ⟨k, hk, rfl⟩ := List.mem_map.1 he
    simp only [storageFits, hp] at hstore
    have hT : s.T.toNat < 16 := hT
    have hk : k < 4 := List.mem_range.1 hk
    exact hstore.1 _ (by omega)
  | exp =>
    obtain ⟨⟨hp, hT⟩, he⟩ := List.mem_ite_nil_right.1 he
    obtain ⟨d, hd, rfl⟩ := List.mem_map.1 he
    simp only [storageFits, hp] at hstore
    have hT : 16 ≤ s.T.toNat := hT
    have hpos : 0 < d := by
      simp only [List.mem_cons, List.not_mem_nil, or_false] at hd
      omega
    exact hstore _ (by omega)
  | initw =>
    obtain ⟨hp, he⟩ := List.mem_ite_nil_right.1 he
    obtain ⟨k, -, rfl⟩ := List.mem_map.1 he
    exact hS (by simp [hp])
  | round =>
    obtain ⟨hp, he⟩ := List.mem_ite_nil_right.1 he
    simp only [storageFits, hp] at hstore
    obtain he | he := List.mem_append.1 he
    · obtain ⟨k, -, rfl⟩ := List.mem_map.1 he
      exact hstore.2
    · cases List.mem_singleton.1 he
      exact hstore.1 _ s.T.isLt
  | acc =>
    obtain ⟨hp, he⟩ := List.mem_ite_nil_right.1 he
    simp only [storageFits, hp] at hstore
    obtain he | he := List.mem_append.1 he
    · obtain ⟨k, -, rfl⟩ := List.mem_map.1 he
      exact hS (by simp [hp])
    · obtain ⟨k, -, rfl⟩ := List.mem_map.1 he
      exact hstore.2

/-- The invariant keeps `LDW` and `EXP` within the sequencer's table. -/
theorem State.Inv.exec_ne_fault {s : State} (h : s.Inv) (i : Instr) (f : Fault) : exec i s ≠ .fault f := by
  intro hx
  have hindex := h.index
  obtain ⟨-, ⟨-, hp, hT⟩ | ⟨-, hp, hT⟩⟩ := exec_fault hx
  all_goals
    simp only [indexFits, hp] at hindex
    omega

theorem exec_ne_refused (i : Instr) (s : State) (r : Refusal) : exec i s ≠ .refused r := by
  intro hx
  cases i with
  | stat | reset => cases hx
  | _ =>
    simp only [exec, execStart, execPush, execFinish, execRead, execPad1, execPad2, execLdw, execExp, execInitw,
      execRound, execAcc] at hx
    repeat' split at hx
    all_goals cases hx

theorem State.Inv.exec_next {s : State} (h : s.Inv) (i : Instr) : ∃ t, exec i s = .next t := by
  cases hx : exec i s with
  | next t => exact ⟨t, rfl⟩
  | fault f => exact absurd hx (h.exec_ne_fault i f)
  | refused r => exact absurd hx (exec_ne_refused i s r)

theorem State.Inv.step_next_or_reserved {s : State} (h : s.Inv) :
    (∃ t, step s = .next t) ∨
      (step s = .refused .reservedCommand ∧ s.turnNow = .host ∧
        ∃ c rest, s.cmds = c :: rest ∧ decode (.cmd c) = .error .reservedCommand) := by
  obtain ⟨-, hx⟩ | ⟨i, -, -, hx⟩ | ⟨c, rest, i, -, -, -, hx⟩ | ⟨-, hx⟩ | ⟨-, hx⟩ | hr := step_by_turn s
  · exact .inl (hx ▸ h.endTurn.exec_next _)
  · exact .inl (hx ▸ h.endTurn.exec_next _)
  · exact .inl (hx ▸ h.endTurn.exec_next _)
  · exact .inl ⟨_, hx⟩
  · exact .inl ⟨_, hx⟩
  · exact .inr hr

theorem State.Inv.checkedStep_eq {s : State} (h : s.Inv) : checkedStep s = liftFault (step s) :=
  checkedStep_of_nil fun _ i _ _ => h.endTurn.noValueReads_eq_nil i

/-- Settles O34: every instruction finds the storage it reads and a position of the table, so only a reserved
word stops a step. -/
theorem stepsFromTheInvariantNeverFault : Obligations.StepsFromTheInvariantNeverFault := fun _ h =>
  ⟨fun _ i _ _ => h.endTurn.noValueReads_eq_nil i, h.checkedStep_eq, h.step_next_or_reserved⟩

/-! ## The free bits are not read where storage holds a value -/

/-- The same state with the free bits of another count of resets. -/
def State.withResets (s : State) (r : Nat) : State := { s with resets := r }

theorem readS_withResets {s : State} (r : Nat) (h : s.S.isSome = true) : readS (s.withResets r) = readS s := by
  obtain ⟨v, hv⟩ := Option.isSome_iff_exists.1 h
  rw [readS_of_some hv, readS_of_some (s := s.withResets r) hv]

theorem readR_withResets {s : State} (r : Nat) (h : s.R.isSome = true) : readR (s.withResets r) = readR s := by
  obtain ⟨v, hv⟩ := Option.isSome_iff_exists.1 h
  rw [readR_of_some hv, readR_of_some (s := s.withResets r) hv]

theorem bufByte_withResets {s : State} (r : Nat) {a : Nat} (h : (Memory.read s.BUF a).isSome = true) :
    bufByte (s.withResets r) a = bufByte s a := by
  obtain ⟨v, hv⟩ := Option.isSome_iff_exists.1 h
  rw [bufByte_of_read hv, bufByte_of_read (s := s.withResets r) hv]

theorem schedWord_withResets {s : State} (r : Nat) {j : Nat} (h : (Memory.read s.W j).isSome = true) :
    schedWord (s.withResets r) j = schedWord s j := by
  obtain ⟨v, hv⟩ := Option.isSome_iff_exists.1 h
  rw [schedWord_of_read hv, schedWord_of_read (s := s.withResets r) hv]

section WithResets

variable {s t : State} (r : Nat)

theorem exec_read_withResets {a : BitVec 8} (hn : ∀ e ∈ elementsRead (.read a) s, s.holds e = true)
    (hx : exec (.read a) s = .next t) : exec (.read a) (s.withResets r) = .next (t.withResets r) := by
  obtain ⟨hp, rfl⟩ | ⟨hp, ha, rfl⟩ := execRead_next hx
  · exact exec_read_waits hp
  · have hS : s.S.isSome = true := hn (.S, a.toNat / 4) (by simp [elementsRead, hp, ha])
    rw [exec_read_of_phase (s := s.withResets r) hp ha, readS_withResets r hS]
    rfl

theorem exec_initw_withResets (hn : ∀ e ∈ elementsRead .initw s, s.holds e = true)
    (hx : exec .initw s = .next t) : exec .initw (s.withResets r) = .next (t.withResets r) := by
  obtain ⟨hp, rfl⟩ | ⟨hp, rfl⟩ := execInitw_next hx
  · exact exec_micro_waits (i := .initw) rfl hp
  · have hS : s.S.isSome = true := hn (.S, 0) (by simp [elementsRead, hp])
    rw [exec_initw_of_phase (s := s.withResets r) hp, readS_withResets r hS]
    rfl

theorem exec_acc_withResets (hn : ∀ e ∈ elementsRead .acc s, s.holds e = true)
    (hx : exec .acc s = .next t) : exec .acc (s.withResets r) = .next (t.withResets r) := by
  obtain ⟨hp, rfl⟩ | ⟨hp, rfl⟩ := execAcc_next hx
  · exact exec_micro_waits (i := .acc) rfl hp
  · have hS : s.S.isSome = true := hn (.S, 0) (by simp [elementsRead, hp])
    have hR : s.R.isSome = true := hn (.R, 0) (by simp [elementsRead, hp])
    rw [exec_acc_of_phase (s := s.withResets r) hp, readS_withResets r hS, readR_withResets r hR]
    rfl

theorem exec_round_withResets (hn : ∀ e ∈ elementsRead .round s, s.holds e = true)
    (hx : exec .round s = .next t) : exec .round (s.withResets r) = .next (t.withResets r) := by
  by_cases hp : s.PHASE = .round
  · have hR : s.R.isSome = true := hn (.R, 0) (by simp [elementsRead, hp])
    have hW : (Memory.read s.W s.T.toNat).isSome = true := hn (.W, s.T.toNat) (by simp [elementsRead, hp])
    have hword : schedWord (s.withResets r) (s.withResets r).T.toNat = schedWord s s.T.toNat :=
      schedWord_withResets r hW
    cases (exec_round_of_phase hp).symm.trans hx
    rw [exec_round_of_phase (s := s.withResets r) hp, readR_withResets r hR, hword]
    rfl
  · cases (exec_micro_waits (i := .round) rfl hp).symm.trans hx
    exact exec_micro_waits (i := .round) rfl hp

theorem exec_ldw_withResets (hn : ∀ e ∈ elementsRead .ldw s, s.holds e = true)
    (hx : exec .ldw s = .next t) : exec .ldw (s.withResets r) = .next (t.withResets r) := by
  obtain ⟨hp, rfl⟩ | ⟨hp, hT, -⟩ := execLdw_next hx
  · exact exec_micro_waits (i := .ldw) rfl hp
  · have hbyte (k : Nat) (hk : k < 4) :
        bufByte (s.withResets r) (4 * s.T.toNat + k) = bufByte s (4 * s.T.toNat + k) := by
      refine bufByte_withResets r (hn (.BUF, 4 * s.T.toNat + k) ?_)
      rw [elementsRead, if_pos ⟨hp, hT⟩]
      exact List.mem_map_of_mem (List.mem_range.2 hk)
    have hword : bufWord (s.withResets r) (4 * (s.withResets r).T.toNat) = bufWord s (4 * s.T.toNat) := by
      have hfirst : bufByte (s.withResets r) (4 * s.T.toNat) = bufByte s (4 * s.T.toNat) := hbyte 0 (by decide)
      change bufWord (s.withResets r) (4 * s.T.toNat) = _
      rw [bufWord, bufWord, hfirst, hbyte 1 (by decide), hbyte 2 (by decide), hbyte 3 (by decide)]
    cases (exec_ldw_of_phase hp (Nat.le_of_lt_succ hT)).symm.trans hx
    rw [exec_ldw_of_phase (s := s.withResets r) hp (Nat.le_of_lt_succ hT), hword]
    rfl

theorem exec_exp_withResets (hn : ∀ e ∈ elementsRead .exp s, s.holds e = true)
    (hx : exec .exp s = .next t) : exec .exp (s.withResets r) = .next (t.withResets r) := by
  obtain ⟨hp, rfl⟩ | ⟨hp, hT, -⟩ := execExp_next hx
  · exact exec_micro_waits (i := .exp) rfl hp
  · have hread (d : Nat) (hd : d ∈ [2, 7, 15, 16]) :
        schedWord (s.withResets r) ((s.withResets r).T.toNat - d) = schedWord s (s.T.toNat - d) := by
      refine schedWord_withResets r (hn (.W, s.T.toNat - d) ?_)
      rw [elementsRead, if_pos ⟨hp, hT⟩]
      exact List.mem_map_of_mem hd
    have hword : nextSchedWord (s.withResets r) (s.withResets r).T.toNat = nextSchedWord s s.T.toNat := by
      simp only [nextSchedWord, hread, List.mem_cons, true_or, or_true]
    cases (exec_exp_of_phase hp hT).symm.trans hx
    rw [exec_exp_of_phase (s := s.withResets r) hp hT, hword]
    rfl

/-- An instruction other than `RESET` that finds a value in all the storage it reads does not look at the
free bits. -/
theorem exec_withResets {i : Instr} (hi : i ≠ .reset) (hn : noValueReads i s = []) (hx : exec i s = .next t) :
    exec i (s.withResets r) = .next (t.withResets r) := by
  rw [noValueReads_eq_nil_iff] at hn
  cases i with
  | reset => exact absurd rfl hi
  | stat =>
    cases hx
    rfl
  | start =>
    obtain ⟨hp, rfl⟩ | ⟨hp, rfl⟩ := execStart_next hx
    · exact if_neg (Bool.not_eq_true _ ▸ hp)
    · exact exec_start_of_enabled (s := s.withResets r) hp
  | push b =>
    by_cases hp : s.PHASE = .absorb
    · cases (exec_push_of_phase b hp).symm.trans hx
      exact exec_push_of_phase (s := s.withResets r) b hp
    · cases (exec_push_waits b hp).symm.trans hx
      exact exec_push_waits b hp
  | finish =>
    obtain ⟨hp, rfl⟩ | ⟨hp, rfl⟩ := execFinish_next hx
    · exact exec_finish_waits hp
    · exact exec_finish_of_phase (s := s.withResets r) hp
  | pad1 =>
    obtain ⟨hp, rfl⟩ | ⟨hp, rfl⟩ := execPad1_next hx
    · exact exec_micro_waits (i := .pad1) rfl hp
    · exact exec_pad1_of_phase (s := s.withResets r) hp
  | pad2 =>
    obtain ⟨hp, rfl⟩ | ⟨hp, rfl⟩ := execPad2_next hx
    · exact exec_micro_waits (i := .pad2) rfl hp
    · simp only [exec, execPad2, State.withResets, hp, if_true]
  | read a => exact exec_read_withResets r hn hx
  | ldw => exact exec_ldw_withResets r hn hx
  | exp => exact exec_exp_withResets r hn hx
  | initw => exact exec_initw_withResets r hn hx
  | round => exact exec_round_withResets r hn hx
  | acc => exact exec_acc_withResets r hn hx

end WithResets

/-- Settles O35: a reachable state satisfies the invariant; and the free bits are looked at only where an
element holds no value. -/
theorem runsFromResetNeverFault : Obligations.RunsFromResetNeverFault := by
  refine ⟨fun s hs => ?_, fun s t i r hi hn hx => exec_withResets r hi hn hx⟩
  have h := State.inv_of_reachable hs
  have hstep (f : Fault) : step s ≠ .fault f := by
    obtain ⟨t, ht⟩ | ⟨hr, -⟩ := h.step_next_or_reserved <;> simp [*]
  refine ⟨hstep, fun f hf => ?_, fun _ i _ _ => h.endTurn.noValueReads_eq_nil i⟩
  rw [h.checkedStep_eq] at hf
  obtain ⟨t, ht⟩ | ⟨hr, -⟩ := h.step_next_or_reserved <;> simp [*, liftFault] at hf

end Sys2Proof.Machine
end

section
/-! The six instructions that read storage, with every value a read can deliver, and the fault `NoValue` of the
checked step (spec 10_state.md rule R43). -/

namespace Sys2Proof.Machine

theorem Regs8.get_add (r q : Regs8) {i : Nat} (hi : i < 8) : (r.add q).get i = r.get i + q.get i := by
  obtain rfl | rfl | rfl | rfl | rfl | rfl | rfl | rfl :
    i = 0 ∨ i = 1 ∨ i = 2 ∨ i = 3 ∨ i = 4 ∨ i = 5 ∨ i = 6 ∨ i = 7 := by omega
  all_goals rfl

/-- Where an instruction reads an element without a value, the checked step faults at such an element. -/
theorem checkedExec_of_mem {i : Instr} {s : State} {e : Space × Nat} (he : e ∈ elementsRead i s)
    (hnone : s.holds e = false) :
    ∃ e' ∈ elementsRead i s, s.holds e' = false ∧ checkedExec i s = .fault (.noValue e'.1 e'.2) := by
  obtain ⟨e', he', hfault⟩ := checkedExec_of_ne_nil (List.ne_nil_of_mem (mem_noValueReads.2 ⟨he, hnone⟩))
  obtain ⟨hread, hnone'⟩ := mem_noValueReads.1 he'
  exact ⟨e', hread, hnone', hfault⟩

section
variable {s : State}

theorem elementsRead_read {i : BitVec 8} (hp : s.PHASE = .done) (hi : i.toNat ≤ 31) :
    elementsRead (.read i) s = [(.S, i.toNat / 4)] :=
  if_pos ⟨hp, hi⟩

theorem elementsRead_ldw (hp : s.PHASE = .loadw) (hT : s.T.toNat ≤ 15) :
    elementsRead .ldw s = (List.range 4).map fun k => (.BUF, 4 * s.T.toNat + k) :=
  if_pos ⟨hp, Nat.lt_succ_of_le hT⟩

theorem elementsRead_exp (hp : s.PHASE = .expand) (hT : 16 ≤ s.T.toNat) :
    elementsRead .exp s = [2, 7, 15, 16].map fun d => (.W, s.T.toNat - d) :=
  if_pos ⟨hp, hT⟩

theorem elementsRead_initw (hp : s.PHASE = .initw) :
    elementsRead .initw s = (List.range 8).map fun k => (.S, k) :=
  if_pos hp

theorem elementsRead_round (hp : s.PHASE = .round) :
    elementsRead .round s = ((List.range 8).map fun k => (.R, k)) ++ [(.W, s.T.toNat)] :=
  if_pos hp

theorem elementsRead_acc (hp : s.PHASE = .accum) :
    elementsRead .acc s = ((List.range 8).map fun k => (.S, k)) ++ (List.range 8).map fun k => (.R, k) :=
  if_pos hp

theorem holds_S_eq_false_iff (i : Nat) : s.holds (.S, i) = false ↔ s.S = none := by simp [State.holds]

theorem holds_R_eq_false_iff (i : Nat) : s.holds (.R, i) = false ↔ s.R = none := by simp [State.holds]

theorem holds_W_eq_false_iff (i : Nat) : s.holds (.W, i) = false ↔ Memory.read s.W i = none := by
  simp [State.holds]

theorem holds_BUF_eq_false_iff (i : Nat) : s.holds (.BUF, i) = false ↔ Memory.read s.BUF i = none := by
  simp [State.holds]

theorem checkedExec_read_noValue {i : BitVec 8} (hp : s.PHASE = .done) (hi : i.toNat ≤ 31) (hS : s.S = none) :
    checkedExec (.read i) s = .fault (.noValue .S (i.toNat / 4)) := by
  have hread := elementsRead_read hp hi
  have hmem : (Space.S, i.toNat / 4) ∈ elementsRead (.read i) s := hread ▸ List.mem_singleton_self _
  obtain ⟨e, he, -, hfault⟩ := checkedExec_of_mem hmem ((holds_S_eq_false_iff _).2 hS)
  cases List.mem_singleton.1 (hread ▸ he)
  exact hfault

theorem checkedExec_ldw_noValue (hp : s.PHASE = .loadw) (hT : s.T.toNat ≤ 15)
    (hnone : ∃ k, k < 4 ∧ Memory.read s.BUF (4 * s.T.toNat + k) = none) :
    ∃ k, k < 4 ∧ Memory.read s.BUF (4 * s.T.toNat + k) = none ∧
      checkedExec .ldw s = .fault (.noValue .BUF (4 * s.T.toNat + k)) := by
  have hread := elementsRead_ldw hp hT
  obtain ⟨k, hk, hbyte⟩ := hnone
  have hmem : (Space.BUF, 4 * s.T.toNat + k) ∈ elementsRead .ldw s :=
    hread ▸ List.mem_map_of_mem (List.mem_range.2 hk)
  obtain ⟨e, he, habsent, hfault⟩ := checkedExec_of_mem hmem ((holds_BUF_eq_false_iff _).2 hbyte)
  obtain ⟨k', hk', rfl⟩ := List.mem_map.1 (hread ▸ he)
  exact ⟨k', List.mem_range.1 hk', (holds_BUF_eq_false_iff _).1 habsent, hfault⟩

theorem checkedExec_exp_noValue (hp : s.PHASE = .expand) (hT : 16 ≤ s.T.toNat)
    (hnone : ∃ d, d ∈ [2, 7, 15, 16] ∧ Memory.read s.W (s.T.toNat - d) = none) :
    ∃ d, d ∈ [2, 7, 15, 16] ∧ Memory.read s.W (s.T.toNat - d) = none ∧
      checkedExec .exp s = .fault (.noValue .W (s.T.toNat - d)) := by
  have hread := elementsRead_exp hp hT
  obtain ⟨d, hd, hword⟩ := hnone
  have hmem : (Space.W, s.T.toNat - d) ∈ elementsRead .exp s := hread ▸ List.mem_map_of_mem hd
  obtain ⟨e, he, habsent, hfault⟩ := checkedExec_of_mem hmem ((holds_W_eq_false_iff _).2 hword)
  obtain ⟨d', hd', rfl⟩ := List.mem_map.1 (hread ▸ he)
  exact ⟨d', hd', (holds_W_eq_false_iff _).1 habsent, hfault⟩

theorem checkedExec_initw_noValue (hp : s.PHASE = .initw) (hS : s.S = none) :
    ∃ k, k < 8 ∧ checkedExec .initw s = .fault (.noValue .S k) := by
  have hread := elementsRead_initw hp
  have hmem : (Space.S, 0) ∈ elementsRead .initw s := by simp [hread]
  obtain ⟨e, he, -, hfault⟩ := checkedExec_of_mem hmem ((holds_S_eq_false_iff _).2 hS)
  obtain ⟨k, hk, rfl⟩ := List.mem_map.1 (hread ▸ he)
  exact ⟨k, List.mem_range.1 hk, hfault⟩

theorem checkedExec_round_noValue (hp : s.PHASE = .round)
    (hnone : s.R = none ∨ Memory.read s.W s.T.toNat = none) :
    (s.R = none ∧ ∃ k, k < 8 ∧ checkedExec .round s = .fault (.noValue .R k)) ∨
      (Memory.read s.W s.T.toNat = none ∧ checkedExec .round s = .fault (.noValue .W s.T.toNat)) := by
  have hread := elementsRead_round hp
  obtain ⟨e, hmem, hholds⟩ : ∃ e ∈ elementsRead .round s, s.holds e = false := by
    obtain hR | hW := hnone
    · exact ⟨(.R, 0), by simp [hread], (holds_R_eq_false_iff _).2 hR⟩
    · exact ⟨(.W, s.T.toNat), by simp [hread], (holds_W_eq_false_iff _).2 hW⟩
  obtain ⟨e', he, habsent, hfault⟩ := checkedExec_of_mem hmem hholds
  obtain he | he := List.mem_append.1 (hread ▸ he)
  · obtain ⟨k, hk, rfl⟩ := List.mem_map.1 he
    exact .inl ⟨(holds_R_eq_false_iff _).1 habsent, k, List.mem_range.1 hk, hfault⟩
  · cases List.mem_singleton.1 he
    exact .inr ⟨(holds_W_eq_false_iff _).1 habsent, hfault⟩

theorem checkedExec_acc_noValue (hp : s.PHASE = .accum) (hnone : s.S = none ∨ s.R = none) :
    ∃ x k, k < 8 ∧ ((x = .S ∧ s.S = none) ∨ (x = .R ∧ s.R = none)) ∧
      checkedExec .acc s = .fault (.noValue x k) := by
  have hread := elementsRead_acc hp
  obtain ⟨e, hmem, hholds⟩ : ∃ e ∈ elementsRead .acc s, s.holds e = false := by
    obtain hS | hR := hnone
    · exact ⟨(.S, 0), by simp [hread], (holds_S_eq_false_iff _).2 hS⟩
    · exact ⟨(.R, 0), by simp [hread], (holds_R_eq_false_iff _).2 hR⟩
  obtain ⟨e', he, habsent, hfault⟩ := checkedExec_of_mem hmem hholds
  obtain he | he := List.mem_append.1 (hread ▸ he)
  · obtain ⟨k, hk, rfl⟩ := List.mem_map.1 he
    exact ⟨.S, k, List.mem_range.1 hk, .inl ⟨rfl, (holds_S_eq_false_iff _).1 habsent⟩, hfault⟩
  · obtain ⟨k, hk, rfl⟩ := List.mem_map.1 he
    exact ⟨.R, k, List.mem_range.1 hk, .inr ⟨rfl, (holds_R_eq_false_iff _).1 habsent⟩, hfault⟩

end

/-- Settles O29: a read delivers the value or the free bits, the instructions run on what is read, and the
checked step faults exactly where an element without a value is read. -/
theorem readsOfUnwrittenStorageRunWithFreeBits : Obligations.ReadsOfUnwrittenStorageRunWithFreeBits := by
  intro s
  refine ⟨⟨fun v => readS_of_some, fun h i hi => ?_⟩, ⟨fun v => readR_of_some, fun h i hi => ?_⟩,
    fun a => ⟨fun v => bufByte_of_read, bufByte_unwritten⟩, fun j => ⟨fun v => schedWord_of_read, schedWord_unwritten⟩,
    fun i hp hi => exec_read_of_phase hp hi, exec_ldw_of_phase, exec_exp_of_phase, exec_initw_of_phase,
    exec_round_of_phase, fun hp => ⟨_, ?_, fun i hi => Regs8.get_add (readS s) (readR s) hi⟩,
    fun i => checkedExec_read_noValue, checkedExec_ldw_noValue, checkedExec_exp_noValue,
    checkedExec_initw_noValue, checkedExec_round_noValue, checkedExec_acc_noValue, fun i => checkedExec_of_nil,
    fun sel i hs hd => ?_⟩
  · rw [readS_unwritten h, Regs8.get_ofFn _ hi]
  · rw [readR_unwritten h, Regs8.get_ofFn _ hi]
  · rw [exec_acc_of_phase hp]
    rfl
  · simp [checkedStep, hs, hd]

end Sys2Proof.Machine
end

section
/-! The sequencer: the edges each instruction follows, and that they depend on control registers alone (spec
10_state.md rule R36, 44_engine_and_commands.md rule R171, 70_reset_and_hazards.md rules R202, R210, R211). -/

namespace Sys2Proof.Machine

section Edges

variable {s t : State}

theorem exec_ldw_edge (hp : s.PHASE = .loadw) (hx : exec .ldw s = .next t) : seqEdge s t := by
  obtain ⟨hne, -⟩ | ⟨-, hlt, -⟩ := execLdw_next hx
  · exact absurd hp hne
  · cases (exec_ldw_of_phase hp (Nat.le_of_lt_succ hlt)).symm.trans hx
    by_cases hT : s.T.toNat = 15
    · have hT' : s.T = 15 := BitVec.eq_of_toNat_eq hT
      simp [seqEdge, hp, hT']
    · have hnext := toNat_ofNat_of_lt (n := s.T.toNat + 1) (by omega)
      have hlt' : s.T.toNat < 15 := by omega
      simp [seqEdge, hp, hT, hnext, hlt']

theorem exec_exp_edge (hp : s.PHASE = .expand) (hx : exec .exp s = .next t) : seqEdge s t := by
  obtain ⟨hne, -⟩ | ⟨-, hge, -⟩ := execExp_next hx
  · exact absurd hp hne
  · cases (exec_exp_of_phase hp hge).symm.trans hx
    by_cases hT : s.T.toNat = 63
    · have hT' : s.T = 63 := BitVec.eq_of_toNat_eq hT
      simp [seqEdge, hp, hT']
    · have hnext := toNat_ofNat_of_lt (n := s.T.toNat + 1) (by omega)
      have hlt : s.T.toNat < 63 := by omega
      simp [seqEdge, hp, hT, hnext, hge, hlt]

theorem exec_round_edge (hp : s.PHASE = .round) (hx : exec .round s = .next t) : seqEdge s t := by
  cases (exec_round_of_phase hp).symm.trans hx
  by_cases hT : s.T.toNat = 63
  · have hT' : s.T = 63 := BitVec.eq_of_toNat_eq hT
    simp [seqEdge, hp, hT']
  · have hnext := toNat_ofNat_of_lt (n := s.T.toNat + 1) (by omega)
    have hlt : s.T.toNat < 63 := by omega
    simp [seqEdge, hp, hT, hnext, hlt]

theorem exec_acc_edge (hp : s.PHASE = .accum) (hx : exec .acc s = .next t) : seqEdge s t := by
  cases (exec_acc_of_phase hp).symm.trans hx
  cases hk : s.TAIL <;> simp [seqEdge, hp, hk, phaseAfterAcc]

/-- The engine's micro-operation always follows an edge. -/
theorem exec_micro_edge {i : Instr} (hi : microPhase i = some s.PHASE) (hx : exec i s = .next t) :
    seqEdge s t := by
  have hp {p : Phase} (h : some p = some s.PHASE) : s.PHASE = p := (Option.some.inj h).symm
  cases i with
  | pad1 =>
    obtain ⟨hne, -⟩ | ⟨hp, rfl⟩ := execPad1_next hx
    · exact absurd (hp hi) hne
    · simp [seqEdge, hp]
  | pad2 =>
    obtain ⟨hne, -⟩ | ⟨hp, rfl⟩ := execPad2_next hx
    · exact absurd (hp hi) hne
    · simp [seqEdge, hp]
  | ldw => exact exec_ldw_edge (hp hi) hx
  | exp => exact exec_exp_edge (hp hi) hx
  | initw =>
    cases (exec_initw_of_phase (hp hi)).symm.trans hx
    simp [seqEdge, hp hi]
  | round => exact exec_round_edge (hp hi) hx
  | acc => exact exec_acc_edge (hp hi) hx
  | start | push | finish | read | stat | reset => cases hi

/-- A command leaves `(PHASE, T)` as it is or follows an edge. -/
theorem exec_command_edge {i : Instr} (hi : isMicroOperation i = false) (hreset : i ≠ .reset)
    (hx : exec i s = .next t) : (t.PHASE = s.PHASE ∧ t.T = s.T) ∨ seqEdge s t := by
  cases i with
  | start =>
    obtain ⟨-, rfl⟩ | ⟨hp, rfl⟩ := execStart_next hx
    · exact .inl ⟨rfl, rfl⟩
    · exact .inr (.inl ⟨hp, rfl, rfl⟩)
  | push b =>
    obtain ⟨-, rfl⟩ | ⟨hp, hN, rfl⟩ | ⟨-, -, rfl⟩ := execPush_next hx
    · exact .inl ⟨rfl, rfl⟩
    · exact .inr (.inr (.inl ⟨hp, hN, rfl, rfl⟩))
    · exact .inl ⟨rfl, rfl⟩
  | finish =>
    obtain ⟨-, rfl⟩ | ⟨hp, rfl⟩ := execFinish_next hx
    · exact .inl ⟨rfl, rfl⟩
    · exact .inr (.inr (.inr (.inl ⟨hp, rfl, rfl⟩)))
  | read a =>
    have hst := (exec_response (.inr ⟨a, rfl⟩) hx).1
    exact .inl ⟨hst.phase_eq, hst.index_eq⟩
  | stat =>
    have hst := (exec_response (.inl rfl) hx).1
    exact .inl ⟨hst.phase_eq, hst.index_eq⟩
  | reset => exact absurd rfl hreset
  | pad1 | pad2 | ldw | exp | initw | round | acc => cases hi

end Edges

/-- Settles O38: the engine's turn follows an edge, the host's one or none, and no other turn but a reset's
moves the sequencer. -/
theorem sequencerFollowsTheTable : Obligations.SequencerFollowsTheTable := by
  intro s t hstep hrst
  obtain ⟨hturn, -⟩ | ⟨i, -, hi, hx⟩ | ⟨c, rest, i, hturn, -, hd, hx⟩ | ⟨hturn, rfl⟩ | ⟨hidle, rfl⟩ :=
    step_cases hstep
  · exact absurd hturn hrst
  · have hedge : seqEdge s t := exec_micro_edge (s := s.endTurn) hi hx
    exact ⟨.inr hedge, fun _ _ => hedge⟩
  · obtain ⟨hmicro, hreset⟩ := decode_cmd_ok hd
    exact ⟨exec_command_edge (s := s.endTurn) hmicro hreset hx, fun _ he => nomatch hturn.symm.trans he⟩
  · exact ⟨.inl ⟨rfl, rfl⟩, fun _ he => nomatch hturn.symm.trans he⟩
  · refine ⟨.inl ⟨rfl, rfl⟩, fun hb he => ?_⟩
    obtain h | ⟨h, -⟩ | ⟨-, hnb⟩ := hidle
    · exact nomatch h.symm.trans he
    · exact nomatch h.symm.trans he
    · exact nomatch hb.symm.trans hnb

/-- Settles O39: in a busy phase the host's commands wait or only respond; in `DONE` they do but for
`START`. -/
theorem onlyResetAbortsABusyPhase : Obligations.OnlyResetAbortsABusyPhase := by
  intro s t hstep
  obtain ⟨hturn, -⟩ | ⟨i, hturn, hi, hx⟩ | ⟨c, rest, i, hturn, hc, hd, hx⟩ | ⟨-, rfl⟩ | ⟨-, rfl⟩ :=
    step_cases hstep
  · exact ⟨fun _ hrst => absurd hturn hrst, fun _ hrst => absurd hturn hrst⟩
  · refine ⟨fun _ _ he => absurd hturn he, fun hdone => ?_⟩
    rw [hdone] at hi
    exact nomatch (busy_of_microPhase hi).1
  · obtain ⟨hmicro, hreset⟩ := decode_cmd_ok hd
    refine ⟨fun hb _ _ => ?_, fun hdone _ => ?_⟩
    · by_cases hstat : i = .stat
      · exact (exec_response (s := s.endTurn) (.inl hstat) hx).1
      · cases (exec_command_waits_of_busy (s := s.endTurn) hb hmicro hstat hreset).symm.trans hx
        exact s.sameEngine_ports _ _ _
    · cases i with
      | start =>
        cases (exec_start_of_enabled (s := s.endTurn) (by simp [startEnabled, hdone])).symm.trans hx
        exact .inr ⟨rfl, hturn, c, rest, hc, hd, by simp [hc]⟩
      | push b =>
        cases (exec_push_waits (s := s.endTurn) b (by simp [hdone])).symm.trans hx
        exact .inl ⟨hdone, rfl⟩
      | finish =>
        cases (exec_finish_waits (s := s.endTurn) (by simp [hdone])).symm.trans hx
        exact .inl ⟨hdone, rfl⟩
      | read a =>
        have hst := (exec_response (.inr ⟨a, rfl⟩) hx).1
        exact .inl ⟨hst.phase_eq.trans hdone, hst.chain_eq⟩
      | stat =>
        have hst := (exec_response (.inl rfl) hx).1
        exact .inl ⟨hst.phase_eq.trans hdone, hst.chain_eq⟩
      | reset => exact absurd rfl hreset
      | pad1 | pad2 | ldw | exp | initw | round | acc => cases hmicro
  · exact ⟨fun _ _ _ => s.sameEngine_ports _ _ _, fun hdone _ => .inl ⟨hdone, rfl⟩⟩
  · exact ⟨fun _ _ _ => s.sameEngine_ports _ _ _, fun hdone _ => .inl ⟨hdone, rfl⟩⟩

/-! ## What the response port shows -/

/-- The bytes an instruction puts on the response port. -/
def instrResponse (i : Instr) (s : State) : List Byte :=
  match i with
  | .stat => [statusByte s.PHASE]
  | .read a => if s.PHASE = .done ∧ a.toNat ≤ 31 then [digestByte (readS s) a.toNat] else []
  | _ => []

/-- The bytes a step puts on the response port. -/
def stepResponse (s : State) : List Byte :=
  match s.selected with
  | none => []
  | some sel =>
    match decode sel with
    | .ok i => instrResponse i s
    | .error _ => []

theorem exec_resp {s t : State} {i : Instr} (hx : exec i s = .next t) :
    t.resp = s.resp ++ instrResponse i s := by
  have hmicro (hi : isMicroOperation i = true) : t.resp = s.resp := by
    obtain ⟨-, -, -, hresp, -⟩ := exec_micro_frame hi hx
    exact hresp
  cases i with
  | start => obtain ⟨-, rfl⟩ | ⟨-, rfl⟩ := execStart_next hx <;> simp [instrResponse]
  | push b => obtain ⟨-, rfl⟩ | ⟨-, -, rfl⟩ | ⟨-, -, rfl⟩ := execPush_next hx <;> simp [instrResponse]
  | finish => obtain ⟨-, rfl⟩ | ⟨-, rfl⟩ := execFinish_next hx <;> simp [instrResponse]
  | read a =>
    obtain ⟨hwait, rfl⟩ | ⟨hp, ha, rfl⟩ := execRead_next hx
    · simp [instrResponse, hwait]
    · simp [instrResponse, hp, ha]
  | stat =>
    cases hx
    rfl
  | reset =>
    cases hx
    simp [instrResponse]
  | pad1 | pad2 | ldw | exp | initw | round | acc => simpa [instrResponse] using hmicro rfl

theorem State.passTurn_resp (s : State) : s.passTurn.resp = s.resp := by
  unfold State.passTurn
  split <;> rfl

theorem step_resp {s t : State} (h : step s = .next t) : t.resp = s.resp ++ stepResponse s := by
  obtain ⟨sel, i, hs, hd, hx⟩ | ⟨rfl, hnone⟩ := step_next h
  · rw [exec_resp hx]
    simp only [stepResponse, hs, hd]
    rfl
  · rw [State.passTurn_resp]
    cases hs : s.selected with
    | none => simp [stepResponse, hs]
    | some sel => obtain hd | hd := hnone sel hs <;> simp [stepResponse, hs, hd]

theorem State.turnNow_congr {s s' : State} (hp : s'.PHASE = s.PHASE) (hturns : s'.turns = s.turns) :
    s'.turnNow = s.turnNow := by
  simp only [State.turnNow, hp, hturns]

theorem State.selected_congr {s s' : State} (hp : s'.PHASE = s.PHASE) (hcmds : s'.cmds = s.cmds)
    (hturns : s'.turns = s.turns) : s'.selected = s.selected := by
  simp only [State.selected, State.turnNow_congr hp hturns, hp, hcmds]

theorem instrResponse_congr {s s' : State} (i : Instr) (hp : s'.PHASE = s.PHASE)
    (hS : s.PHASE = .done → readS s' = readS s) : instrResponse i s' = instrResponse i s := by
  cases i with
  | read a =>
    simp only [instrResponse, hp]
    split
    next hread => rw [hS hread.1]
    next => rfl
  | stat => simp only [instrResponse, hp]
  | _ => rfl

/-- Settles O41: the bytes a step responds with depend on `PHASE`, what is selected, and in `DONE` on `S`. -/
theorem residueIsNotVisible : Obligations.ResidueIsNotVisible := by
  intro s s' t t' hp hcmds hturns hresp hS hstep hstep'
  have hsel := State.selected_congr hp hcmds hturns
  have hresponse : stepResponse s' = stepResponse s := by
    simp only [stepResponse, hsel, instrResponse_congr _ hp hS]
  rw [step_resp hstep, step_resp hstep', hresp, hresponse]

end Sys2Proof.Machine
end

section
/-! Control flow reads the control registers and the kinds of the presented commands, never a message byte or
storage (spec 44_engine_and_commands.md rule R171, 70_reset_and_hazards.md rule R210). -/

namespace Sys2Proof.Machine

/-- Instructions that differ at most in the byte a `PUSH` carries. -/
def sameButPushed (i i' : Instr) : Prop := i = i' ∨ ∃ b b', i = .push b ∧ i' = .push b'

theorem decode_push_of_op {c : BitVec 12} (h : c &&& 0xF00#12 = 0x200#12) :
    decode (.cmd c) = .ok (.push (c.setWidth 8)) := by
  simp [decode, decodeCmd, h]

theorem decode_of_sameButByte {c c' : BitVec 12} {i : Instr} (hc : sameButByte c c')
    (hd : decode (.cmd c) = .ok i) : ∃ i', decode (.cmd c') = .ok i' ∧ sameButPushed i i' := by
  obtain rfl | ⟨hpush, hpush'⟩ := hc
  · exact ⟨i, hd, .inl rfl⟩
  · cases (decode_push_of_op hpush).symm.trans hd
    exact ⟨_, decode_push_of_op hpush', .inr ⟨_, _, rfl, rfl⟩⟩

section Exec

variable {s s' t : State} (h : sameControl s s')

include h

theorem sameControl.endTurn : sameControl s.endTurn s'.endTurn := by
  obtain ⟨hp, hk, hN, hT, hL, hturns, hcmds⟩ := h
  exact ⟨hp, hk, hN, hT, hL, congrArg List.tail hturns, hcmds⟩

theorem sameControl.turnNow : s'.turnNow = s.turnNow := by
  obtain ⟨hp, -, -, -, -, hturns, -⟩ := h
  exact State.turnNow_congr hp hturns

theorem sameControl.forall₂_tail : List.Forall₂ sameButByte s.cmds.tail s'.cmds.tail := by
  obtain ⟨-, -, -, -, -, -, hcmds⟩ := h
  simpa only [List.drop_one] using List.forall₂_drop 1 hcmds

theorem exec_micro_sameControl {i : Instr} (hi : microPhase i = some s.PHASE) (hx : exec i s = .next t) :
    ∃ t', exec i s' = .next t' ∧ sameControl t t' := by
  obtain ⟨hp, hk, hN, hT, hL, hturns, hcmds⟩ := h
  have hphase {p : Phase} (he : some p = some s.PHASE) : s.PHASE = p ∧ s'.PHASE = p :=
    ⟨(Option.some.inj he).symm, hp.trans (Option.some.inj he).symm⟩
  cases i with
  | pad1 =>
    cases (exec_pad1_of_phase (hphase hi).1).symm.trans hx
    exact ⟨_, exec_pad1_of_phase (hphase hi).2, by simp [sameControl, hN, hL, hturns, hcmds]⟩
  | pad2 =>
    cases (exec_pad2_of_phase (hphase hi).1).symm.trans hx
    exact ⟨_, exec_pad2_of_phase (hphase hi).2, by simp [sameControl, hN, hL, hturns, hcmds]⟩
  | ldw =>
    obtain ⟨hne, -⟩ | ⟨-, hlt, -⟩ := execLdw_next hx
    · exact absurd (hphase hi).1 hne
    · cases (exec_ldw_of_phase (hphase hi).1 (Nat.le_of_lt_succ hlt)).symm.trans hx
      exact ⟨_, exec_ldw_of_phase (hphase hi).2 (hT ▸ Nat.le_of_lt_succ hlt),
        by simp [sameControl, hk, hN, hT, hL, hturns, hcmds]⟩
  | exp =>
    obtain ⟨hne, -⟩ | ⟨-, hge, -⟩ := execExp_next hx
    · exact absurd (hphase hi).1 hne
    · cases (exec_exp_of_phase (hphase hi).1 hge).symm.trans hx
      exact ⟨_, exec_exp_of_phase (hphase hi).2 (hT ▸ hge),
        by simp [sameControl, hk, hN, hT, hL, hturns, hcmds]⟩
  | initw =>
    cases (exec_initw_of_phase (hphase hi).1).symm.trans hx
    exact ⟨_, exec_initw_of_phase (hphase hi).2, by simp [sameControl, hk, hN, hL, hturns, hcmds]⟩
  | round =>
    cases (exec_round_of_phase (hphase hi).1).symm.trans hx
    exact ⟨_, exec_round_of_phase (hphase hi).2, by simp [sameControl, hk, hN, hT, hL, hturns, hcmds]⟩
  | acc =>
    cases (exec_acc_of_phase (hphase hi).1).symm.trans hx
    exact ⟨_, exec_acc_of_phase (hphase hi).2, by simp [sameControl, hk, hN, hL, hturns, hcmds]⟩
  | start | push | finish | read | stat | reset => cases hi

theorem exec_push_sameControl {b : Byte} (b' : Byte) (hx : exec (.push b) s = .next t) :
    ∃ t', exec (.push b') s' = .next t' ∧ sameControl t t' := by
  have hrest := sameControl.forall₂_tail h
  have hctrl := h
  obtain ⟨hp, hk, hN, hT, hL, hturns, hcmds⟩ := h
  by_cases hphase : s.PHASE = .absorb
  · cases (exec_push_of_phase b hphase).symm.trans hx
    refine ⟨_, exec_push_of_phase b' (hp.trans hphase), ?_⟩
    simp [sameControl, hk, hN, hT, hL, hturns, hrest]
  · cases (exec_push_waits b hphase).symm.trans hx
    exact ⟨s', exec_push_waits b' (hp ▸ hphase), hctrl⟩

theorem exec_sameControl {i : Instr} (hi : isMicroOperation i = false) (hx : exec i s = .next t) :
    ∃ t', exec i s' = .next t' ∧ sameControl t t' := by
  have hrest := sameControl.forall₂_tail h
  have hctrl := h
  obtain ⟨hp, hk, hN, hT, hL, hturns, hcmds⟩ := h
  cases i with
  | start =>
    obtain ⟨hs, rfl⟩ | ⟨hs, rfl⟩ := execStart_next hx
    · exact ⟨s', exec_start_waits (by simpa [startEnabled_eq_not_flagBusy, hp] using hs), hctrl⟩
    · exact ⟨_, exec_start_of_enabled (hp ▸ hs), by simp [sameControl, hturns, hrest]⟩
  | push b => exact exec_push_sameControl hctrl b hx
  | finish =>
    obtain ⟨hs, rfl⟩ | ⟨hs, rfl⟩ := execFinish_next hx
    · exact ⟨s', exec_finish_waits (hp ▸ hs), hctrl⟩
    · exact ⟨_, exec_finish_of_phase (hp.trans hs), by simp [sameControl, hk, hN, hL, hturns, hrest]⟩
  | read a =>
    obtain ⟨hs, rfl⟩ | ⟨hs, ha, rfl⟩ := execRead_next hx
    · exact ⟨s', exec_read_waits (hp ▸ hs), hctrl⟩
    · exact ⟨_, exec_read_of_phase (hp.trans hs) ha, by simp [sameControl, hp, hk, hN, hT, hL, hturns, hrest]⟩
  | stat =>
    cases hx
    exact ⟨_, rfl, by simp [sameControl, hp, hk, hN, hT, hL, hturns, hrest]⟩
  | reset =>
    cases hx
    exact ⟨_, rfl, by simp [sameControl, hturns, hcmds]⟩
  | pad1 | pad2 | ldw | exp | initw | round | acc => cases hi

end Exec

/-- Settles O40: the two steps are of the same kind, and the two instructions the same but for a byte. -/
theorem controlFlowDoesNotDependOnData : Obligations.ControlFlowDoesNotDependOnData := by
  intro s s' t h hstep
  have hturnNow := h.turnNow
  have hend := h.endTurn
  have hrest := sameControl.forall₂_tail h
  obtain ⟨hturn, hx⟩ | ⟨i, hturn, hi, hx⟩ | ⟨c, rest, i, hturn, hc, hd, hx⟩ | ⟨hturn, rfl⟩ | ⟨hidle, rfl⟩ :=
    step_cases hstep
  · rw [step_rst_one (hturnNow.trans hturn)]
    exact exec_sameControl hend rfl hx
  · obtain ⟨hp, -⟩ := h
    rw [step_engine (hturnNow.trans hturn) (hp.symm ▸ hi)]
    exact exec_micro_sameControl hend hi hx
  · obtain ⟨-, -, -, -, -, -, hcmds⟩ := h
    rw [hc] at hcmds
    obtain ⟨c', rest', hcc', -, hc'⟩ := List.forall₂_cons_left_iff.1 hcmds
    obtain ⟨i', hd', hsame⟩ := decode_of_sameButByte hcc' hd
    rw [step_host (hturnNow.trans hturn) hc' hd']
    obtain rfl | ⟨b, b', rfl, rfl⟩ := hsame
    · exact exec_sameControl hend (decode_cmd_ok hd).1 hx
    · exact exec_push_sameControl hend b' hx
  · obtain ⟨hp, hk, hN, hT, hL, hturns, -⟩ := hend
    exact ⟨_, step_withdraw (hturnNow.trans hturn), hp, hk, hN, hT, hL, hturns, hrest⟩
  · have hidle' : s'.turnIsIdle := by
      obtain ⟨hp, -, -, -, -, -, hcmds⟩ := h
      obtain hz | ⟨hhost, hc⟩ | ⟨heng, hb⟩ := hidle
      · exact .inl (hturnNow.trans hz)
      · rw [hc] at hcmds
        exact .inr (.inl ⟨hturnNow.trans hhost, List.forall₂_nil_left_iff.1 hcmds⟩)
      · exact .inr (.inr ⟨hturnNow.trans heng, hp ▸ hb⟩)
    exact ⟨_, step_of_turnIsIdle hidle', hend⟩

end Sys2Proof.Machine
end

section
/-! The ROMs against the prime roots (spec 10_state.md rules R26, R27). -/

namespace Sys2Proof.Machine

/-- Primality as a bounded search, which can be evaluated. -/
def isPrimeBySearch (n : Nat) : Bool := decide (2 ≤ n ∧ ∀ m, m < n → m ∣ n → m = 1)

theorem isPrimeBySearch_eq_decide (n : Nat) : isPrimeBySearch n = decide (Nat.Prime n) :=
  decide_eq_decide.2 Nat.prime_def_lt.symm

/-- The primes to 311, found by search. -/
theorem primesTo311_eq_filter_search : primesTo311 = (List.range 312).filter isPrimeBySearch := by
  simp only [primesTo311, ← isPrimeBySearch_eq_decide]

theorem primesTo311_eq : primesTo311 =
    [2, 3, 5, 7, 11, 13, 17, 19, 23, 29, 31, 37, 41, 43, 47, 53, 59, 61, 67, 71, 73, 79, 83, 89, 97, 101, 103,
      107, 109, 113, 127, 131, 137, 139, 149, 151, 157, 163, 167, 173, 179, 181, 191, 193, 197, 199, 211, 223,
      227, 229, 233, 239, 241, 251, 257, 263, 269, 271, 277, 281, 283, 293, 307, 311] := by
  rw [primesTo311_eq_filter_search]
  decide +kernel

/-- Settles O10: the integer parts of the roots are below 8, which bounds the search for `q`. -/
theorem romsHoldTheFractionsOfPrimeRoots : Obligations.RomsHoldTheFractionsOfPrimeRoots := by
  have hcube : ∀ i, i < 64 → ∃ q, q < 8 ∧
      (q * 2 ^ 32 + (romK i).toNat) ^ 3 ≤ primesTo311.getD i 0 * 2 ^ 96 ∧
      primesTo311.getD i 0 * 2 ^ 96 < (q * 2 ^ 32 + (romK i).toNat + 1) ^ 3 := by
    rw [primesTo311_eq]
    decide +kernel
  have hsquare : ∀ i, i < 8 → ∃ q, q < 8 ∧
      (q * 2 ^ 32 + (romIV.get i).toNat) ^ 2 ≤ primesTo311.getD i 0 * 2 ^ 64 ∧
      primesTo311.getD i 0 * 2 ^ 64 < (q * 2 ^ 32 + (romIV.get i).toNat + 1) ^ 2 := by
    rw [primesTo311_eq]
    decide +kernel
  refine ⟨by rw [primesTo311_eq]; rfl, fun i hi => ?_, fun i hi => ?_⟩
  · obtain ⟨q, -, hq⟩ := hcube i hi
    exact ⟨q, hq⟩
  · obtain ⟨q, -, hq⟩ := hsquare i hi
    exact ⟨q, hq⟩

end Sys2Proof.Machine
end

section
/-! The document's two known answers (spec 95_test_vectors.md, vectors S1 and S2). -/

namespace Sys2Proof.Machine

/-- Settles O53: the two digests are computed. -/
theorem knownAnswerDigests : Obligations.KnownAnswerDigests := by
  unfold Obligations.KnownAnswerDigests
  decide +kernel

end Sys2Proof.Machine
end

section
/-! A round can be undone (spec 43_compressor.md rule R147). -/

namespace Sys2Proof.Machine

/-- The working registers before a round, from those after it (R147). -/
def unroundRegs (r : Regs8) (k w : Word) : Regs8 :=
  let T1 := r.a - (bsig0 r.b + Maj r.b r.c r.d)
  ⟨r.b, r.c, r.d, r.e - T1, r.f, r.g, r.h, T1 - bsig1 r.f - Ch r.f r.g r.h - k - w⟩

theorem unroundRegs_roundRegs (r : Regs8) (k w : Word) : unroundRegs (roundRegs r k w) k w = r := by
  have hT1 : roundT1 r k w + roundT2 r - (bsig0 r.a + Maj r.a r.b r.c) = roundT1 r k w := add_sub_cancel_right _ _
  have hd : r.d + roundT1 r k w - roundT1 r k w = r.d := add_sub_cancel_right _ _
  have hh : roundT1 r k w - bsig1 r.e - Ch r.e r.f r.g - k - w = r.h := by
    simp only [roundT1, add32]
    abel
  simp only [unroundRegs, roundRegs, add32, hT1, hd, hh]

theorem roundRegs_unroundRegs (r : Regs8) (k w : Word) : roundRegs (unroundRegs r k w) k w = r := by
  have hT1 : roundT1 (unroundRegs r k w) k w = r.a - (bsig0 r.b + Maj r.b r.c r.d) := by
    simp only [roundT1, unroundRegs, add32]
    abel
  rw [roundRegs, hT1]
  simp only [roundT2, unroundRegs, add32, sub_add_cancel]

/-- Settles O47: `unroundRegs` is the inverse of a round on both sides. -/
theorem roundIsInvertible : Obligations.RoundIsInvertible := by
  intro k w
  refine ⟨⟨Function.LeftInverse.injective (g := fun r => unroundRegs r k w) fun r => unroundRegs_roundRegs r k w,
    Function.RightInverse.surjective (g := fun r => unroundRegs r k w) fun r => roundRegs_unroundRegs r k w⟩, ?_⟩
  rintro r r' rfl
  have hinv := unroundRegs_roundRegs r k w
  exact ⟨rfl, rfl, rfl, rfl, rfl, rfl, (congrArg Regs8.d hinv).symm, (congrArg Regs8.h hinv).symm⟩

end Sys2Proof.Machine
end

section
/-! The padding of a message and its blocks (spec 41_padder.md rules R110 to R113, 20_memory.md rule R56). -/

namespace Sys2Proof.Machine

theorem pad_eq (M : List Byte) :
    pad M = M ++ [0x80] ++ List.replicate (zeroCount M.length) 0 ++ be64 (BitVec.ofNat 64 (8 * M.length)) := by
  simp [pad, Config.padMark]

theorem zeroCount_of_le {L : Nat} (h : L % 64 ≤ 55) : zeroCount L = 55 - L % 64 := by
  unfold zeroCount
  omega

theorem zeroCount_of_ge {L : Nat} (h : 56 ≤ L % 64) : zeroCount L = 119 - L % 64 := by
  unfold zeroCount
  omega

theorem pad_length (M : List Byte) : (pad M).length = M.length + 9 + zeroCount M.length := by
  simp only [pad_eq, List.length_append, List.length_singleton, List.length_replicate, be64_length]
  omega

theorem pad_length_eq_blocks (M : List Byte) : (pad M).length = 64 * blockCount M.length := by
  rw [pad_length, blockCount, zeroCount]
  omega

theorem pad_drop_length_field (M : List Byte) :
    (pad M).drop ((pad M).length - 8) = be64 (BitVec.ofNat 64 (8 * M.length)) := by
  rw [pad_eq, List.length_append, be64_length, Nat.add_sub_cancel, List.drop_left]

/-- The length field tells the length of a message below `2^61` bytes. -/
theorem length_of_be64_eq {L L' : Nat} (hL : L < 2 ^ 61) (hL' : L' < 2 ^ 61)
    (h : be64 (BitVec.ofNat 64 (8 * L)) = be64 (BitVec.ofNat 64 (8 * L'))) : L = L' := by
  have hvalue : (BitVec.ofNat 64 (8 * L)).toNat = (BitVec.ofNat 64 (8 * L')).toNat := by
    rw [← foldl_be64, h, foldl_be64]
  simp only [BitVec.toNat_ofNat] at hvalue
  omega

/-- The end of the padding tells the length, and the start is the message. -/
theorem pad_injective {M M' : List Byte} (hM : M.length < 2 ^ 61) (hM' : M'.length < 2 ^ 61)
    (h : pad M = pad M') : M = M' := by
  have hlen : M.length = M'.length := by
    refine length_of_be64_eq hM hM' ?_
    rw [← pad_drop_length_field, h, pad_drop_length_field]
  exact List.append_inj_left h hlen

/-- Settles O48: the zeros are the fewest, by the arithmetic of 64. -/
theorem padHasTheFewestZeros : Obligations.PadHasTheFewestZeros := by
  refine fun M => ⟨zeroCount M.length, pad_eq M, ?_, fun k' hk' => ?_⟩ <;> unfold zeroCount <;> omega

/-- Settles O49: the closed forms are arithmetic of 64, and the length field and the start give the message. -/
theorem padLengthAndInjectivity : Obligations.PadLengthAndInjectivity := by
  refine ⟨fun M => ⟨zeroCount_of_le, zeroCount_of_ge, pad_length M, pad_length_eq_blocks M, ?_, ?_, ?_,
    pad_drop_length_field M⟩, fun M M' => pad_injective⟩
  · rw [pad_length_eq_blocks, Nat.mul_mod_right]
  · rw [pad_length]
    omega
  · rw [pad_length, zeroCount]
    omega

/-- The first `n` windows, joined. -/
theorem flatten_blockAt (P : List Byte) (n : Nat) :
    ((List.range n).map (blockAt P)).flatten = P.take (64 * n) := by
  induction n with
  | zero => simp
  | succ n ih =>
    rw [List.range_succ, List.map_append, List.flatten_append, ih, Nat.mul_succ, List.take_add]
    simp [blockAt]

@[simp] theorem blocksOf_length (M : List Byte) : (blocksOf M).length = blockCount M.length := by
  simp [blocksOf]

theorem blocksOf_getElem? {M : List Byte} {i : Nat} (hi : i < blockCount M.length) :
    (blocksOf M)[i]? = some (blockAt (pad M) i) := by
  simp [blocksOf, hi]

theorem blocksOf_getD {M : List Byte} {i : Nat} (hi : i < blockCount M.length) :
    (blocksOf M).getD i [] = blockAt (pad M) i := by
  rw [List.getD_eq_getElem?_getD, blocksOf_getElem? hi]
  rfl

theorem blockAt_pad_length {M : List Byte} {i : Nat} (hi : i < blockCount M.length) :
    (blockAt (pad M) i).length = 64 := by
  rw [blockAt, List.length_take, List.length_drop, pad_length_eq_blocks]
  omega

/-- A window that ends within the message is a window of the message. -/
theorem blockAt_pad_of_lt {M : List Byte} {i : Nat} (hi : i < M.length / 64) :
    blockAt (pad M) i = blockAt M i := by
  have hend : 64 ≤ (M.drop (64 * i)).length := by
    rw [List.length_drop]
    omega
  rw [blockAt, blockAt, pad, List.drop_append_of_le_length (by omega), List.take_append_of_le_length hend]

theorem div_lt_blockCount (L : Nat) : L / 64 < blockCount L := by
  unfold blockCount
  omega

/-- Settles O50: the windows cover the padding exactly, and those within the message are its own. -/
theorem blocksAreTheWindowsOfThePaddedMessage : Obligations.BlocksAreTheWindowsOfThePaddedMessage := by
  refine fun M => ⟨?_, fun B hB => ?_, blocksOf_length M, fun i hi => ?_⟩
  · rw [blocksOf, flatten_blockAt, ← pad_length_eq_blocks, List.take_length]
  · obtain ⟨i, hi, rfl⟩ := List.mem_map.1 hB
    exact blockAt_pad_length (List.mem_range.1 hi)
  · rw [blocksOf_getD (hi.trans (div_lt_blockCount _)), blockAt_pad_of_lt hi, blockAt]

end Sys2Proof.Machine
end

section
/-! Runs, step by step: who moves, which blocks the scheduler is handed and that `DONE` is not left on the way
(spec 44_engine_and_commands.md rule R173, 41_padder.md rule R117). -/

namespace Sys2Proof.Machine

/-! ## One step of a run -/

theorem run_succ_of_step {s t : State} (h : step s = .next t) (k : Nat) :
    Host.Core.run Sys2Proof.core (k + 1) s = Host.Core.run Sys2Proof.core k t := by
  have hcore : Sys2Proof.core.step s = .next t := h
  simp only [Host.Core.run, hcore]

/-- A run of one more step that reaches a state begins with a step that answers one. -/
theorem exists_step_of_run_succ {s t : State} {k : Nat}
    (h : Host.Core.run Sys2Proof.core (k + 1) s = .next t) :
    ∃ u, step s = .next u ∧ Host.Core.run Sys2Proof.core k u = .next t := by
  cases hstep : step s with
  | next u => exact ⟨u, rfl, run_succ_of_step hstep k ▸ h⟩
  | fault f =>
    have hcore : Sys2Proof.core.step s = .fault f := hstep
    simp only [Host.Core.run, hcore] at h
    cases h
  | refused r =>
    have hcore : Sys2Proof.core.step s = .refused r := hstep
    simp only [Host.Core.run, hcore] at h
    cases h

/-- The block handed to the scheduler by a step from `s` to `t`, if the step enters `LOADW`. -/
def loadedBy (s t : State) : List (List Byte) :=
  if s.PHASE ≠ .loadw ∧ t.PHASE = .loadw then [Memory.contents t.BUF] else []

theorem loadedBy_of_ne {s t : State} (h : t.PHASE ≠ .loadw) : loadedBy s t = [] :=
  if_neg fun hload => h hload.2

theorem loadedBy_of_eq {s t : State} (h : s.PHASE = .loadw) : loadedBy s t = [] :=
  if_neg fun hload => hload.1 h

theorem blocksLoaded_succ_of_step {s t : State} (h : step s = .next t) (k : Nat) :
    blocksLoaded (k + 1) s = loadedBy s t ++ blocksLoaded k t := by
  simp only [blocksLoaded, h, loadedBy]
  split <;> rfl

theorem movers_succ_of_step {s t : State} (h : step s = .next t) (k : Nat) :
    movers (k + 1) s = s.turnNow :: movers k t := by
  simp only [movers, h]

/-- A run goes on from the state it has reached. -/
theorem run_add_of_run {s t : State} {k : Nat} (h : Host.Core.run Sys2Proof.core k s = .next t) (m : Nat) :
    Host.Core.run Sys2Proof.core (k + m) s = Host.Core.run Sys2Proof.core m t ∧
      blocksLoaded (k + m) s = blocksLoaded k s ++ blocksLoaded m t := by
  induction k generalizing s with
  | zero =>
    cases h
    simp [blocksLoaded]
  | succ k ih =>
    obtain ⟨u, hstep, hrun⟩ := exists_step_of_run_succ h
    obtain ⟨hrest, hloads⟩ := ih hrun
    rw [Nat.add_right_comm, run_succ_of_step hstep, blocksLoaded_succ_of_step hstep,
      blocksLoaded_succ_of_step hstep, hrest, hloads, List.append_assoc]
    exact ⟨rfl, rfl⟩

/-- A run given by its successive states. -/
theorem run_of_steps (f : Nat → State) (n : Nat) (h : ∀ k, k < n → step (f k) = .next (f (k + 1))) :
    Host.Core.run Sys2Proof.core n (f 0) = .next (f n) := by
  induction n generalizing f with
  | zero => rfl
  | succ n ih =>
    rw [run_succ_of_step (h 0 (Nat.zero_lt_succ n))]
    exact ih (fun k => f (k + 1)) fun k hk => h (k + 1) (Nat.succ_lt_succ hk)

/-! ## Paths -/

/-- A run from `s` to `u` that takes no step in `DONE`, with its agents and the blocks it hands to the
scheduler. -/
inductive Path : State → List Turn → List (List Byte) → State → Prop where
  | refl (s : State) : Path s [] [] s
  | step {s t u : State} {ms : List Turn} {bs : List (List Byte)} : s.PHASE ≠ .done →
      Sys2Proof.Machine.step s = .next t → Path t ms bs u → Path s (s.turnNow :: ms) (loadedBy s t ++ bs) u

namespace Path

variable {s t u : State} {ms ms' : List Turn} {bs bs' : List (List Byte)}

theorem run_eq (h : Path s ms bs u) : Host.Core.run Sys2Proof.core ms.length s = .next u := by
  induction h with
  | refl s => rfl
  | step _ hstep _ ih => exact (run_succ_of_step hstep _).trans ih

theorem movers_eq (h : Path s ms bs u) : movers ms.length s = ms := by
  induction h with
  | refl s => rfl
  | step _ hstep _ ih => rw [List.length_cons, movers_succ_of_step hstep, ih]

theorem blocksLoaded_eq (h : Path s ms bs u) : blocksLoaded ms.length s = bs := by
  induction h with
  | refl s => rfl
  | step _ hstep _ ih => rw [List.length_cons, blocksLoaded_succ_of_step hstep, ih]

/-- Before its end a path is not in `DONE`. -/
theorem not_done (h : Path s ms bs u) {k : Nat} (hk : k < ms.length)
    (hrun : Host.Core.run Sys2Proof.core k s = .next t) : t.PHASE ≠ .done := by
  induction h generalizing k with
  | refl s => exact absurd hk (Nat.not_lt_zero k)
  | step hdone hstep _ ih =>
    cases k with
    | zero =>
      cases hrun
      exact hdone
    | succ k =>
      rw [run_succ_of_step hstep] at hrun
      exact ih (Nat.lt_of_succ_lt_succ hk) hrun

theorem trans (h : Path s ms bs t) (h' : Path t ms' bs' u) : Path s (ms ++ ms') (bs ++ bs') u := by
  induction h with
  | refl s => exact h'
  | step hdone hstep _ ih =>
    rw [List.cons_append, List.append_assoc]
    exact .step hdone hstep (ih h')

theorem single {a : Turn} (hdone : s.PHASE ≠ .done) (hturn : s.turnNow = a)
    (hstep : Sys2Proof.Machine.step s = .next t) : Path s [a] (loadedBy s t) t := by
  have hpath := Path.step hdone hstep (.refl t)
  rwa [hturn, List.append_nil] at hpath

/-- Engine steps given by their successive states, none of which enters `LOADW`. -/
theorem of_engine_steps (f : Nat → State) (n : Nat)
    (h : ∀ k, k < n → (f k).turnNow = .engine ∧ (f k).PHASE ≠ .done ∧ loadedBy (f k) (f (k + 1)) = [] ∧
      Sys2Proof.Machine.step (f k) = .next (f (k + 1))) :
    Path (f 0) (List.replicate n .engine) [] (f n) := by
  induction n generalizing f with
  | zero => exact .refl _
  | succ n ih =>
    obtain ⟨hturn, hdone, hload, hstep⟩ := h 0 (Nat.zero_lt_succ n)
    have hrest := ih (fun k => f (k + 1)) fun k hk => h (k + 1) (Nat.succ_lt_succ hk)
    have hpath := (single hdone hturn hstep).trans hrest
    rwa [hload] at hpath

end Path

end Sys2Proof.Machine
end

section
/-! Writing a list into an array, one element more at a time. -/

namespace Sys2Proof.Machine

variable {w : Nat}

theorem Memory.writeList_append (m : List (Nat × BitVec w)) (a : Nat) (us vs : List (BitVec w)) :
    Memory.writeList m a (us ++ vs) = Memory.writeList (Memory.writeList m a us) (a + us.length) vs := by
  induction us generalizing m a with
  | nil => rfl
  | cons u us ih =>
    rw [List.cons_append, Memory.writeList, Memory.writeList, ih, List.length_cons]
    congr 1
    omega

theorem Memory.writeList_take_succ (m : List (Nat × BitVec w)) (vs : List (BitVec w)) {k : Nat}
    (hk : k < vs.length) :
    Memory.writeList m 0 (vs.take (k + 1)) = Memory.write (Memory.writeList m 0 (vs.take k)) k (vs.getD k 0) := by
  rw [List.take_succ_eq_append_getElem hk, Memory.writeList_append, List.length_take,
    Nat.min_eq_left hk.le, Nat.zero_add, List.getD_eq_getElem _ _ hk]
  rfl

theorem Memory.read_writeList_take (m : List (Nat × BitVec w)) {vs : List (BitVec w)} {j k : Nat} (hj : j < k)
    (hk : k ≤ vs.length) : Memory.read (Memory.writeList m 0 (vs.take k)) j = some (vs.getD j 0) := by
  have hlt : j < (vs.take k).length := by
    rw [List.length_take]
    omega
  rw [Memory.read_writeList, if_pos (by omega), Nat.sub_zero, List.getElem?_eq_getElem hlt, List.getElem_take,
    List.getD_eq_getElem]

/-- Writing every element of an array leaves exactly the list. -/
theorem Memory.writeList_full {n : Nat} {m : List (Nat × BitVec w)} {vs : List (BitVec w)}
    (hm : Memory.wf n m = true) (hlen : vs.length = n) : Memory.writeList m 0 vs = Memory.ofList vs := by
  refine Memory.ext (Memory.wf_writeList vs hm (by omega)) (Memory.wf_ofList vs hlen.le) fun a => ?_
  rw [Memory.read_writeList, Memory.read_ofList, Nat.sub_zero]
  split
  · rfl
  · rw [List.getElem?_eq_none (by omega), Memory.read_above hm (by omega)]

end Sys2Proof.Machine
end

section
/-! The scheduler computes the schedule and the compressor the block function, step by step (spec
42_block_scheduler.md rule R130, 43_compressor.md rule R146). -/

namespace Sys2Proof.Machine

theorem turnNow_of_all_engine {s : State} (hturns : ∀ a ∈ s.turns, a = .engine) (hb : flagBusy s.PHASE = true) :
    s.turnNow = .engine := by
  cases h : s.turns with
  | nil => rw [turnNow_of_nil h, if_pos hb]
  | cons a as => rw [turnNow_of_cons h, hturns a (h ▸ List.mem_cons_self)]

/-- The index wraps to 0 after 63 in 6 bits by itself. -/
theorem wrapped_index (k : Nat) : (if k = 63 then 0 else BitVec.ofNat 6 (k + 1)) = BitVec.ofNat 6 (k + 1) := by
  split
  next h =>
    rw [h]
    rfl
  next => rfl

theorem all_engine_drop {turns : List Turn} (h : ∀ a ∈ turns, a = .engine) (k : Nat) :
    ∀ a ∈ turns.drop k, a = .engine :=
  fun a ha => h a (List.mem_of_mem_drop ha)

/-! ## The scheduler -/

/-- The phase after `k` steps of the scheduler. -/
def schedPhase (k : Nat) : Phase := if k < 16 then .loadw else if k < 64 then .expand else .initw

/-- The state after `k` steps of the scheduler on the block `B`: the first `k` words are written. -/
def scheduling (s : State) (B : List Byte) (k : Nat) : State :=
  { s with
    PHASE := schedPhase k, T := BitVec.ofNat 6 k, W := Memory.writeList s.W 0 ((sched B).take k)
    turns := s.turns.drop k }

section Scheduler

variable {s : State} {B : List Byte} {k : Nat}

theorem scheduling_busy : flagBusy (scheduling s B k).PHASE = true := by
  simp only [scheduling, schedPhase]
  split
  · rfl
  · split <;> rfl

/-- A word that stands in `W` already. -/
theorem schedWord_scheduling {j : Nat} (hj : j < k) (hk : k ≤ 64) :
    schedWord (scheduling s B k).endTurn j = (sched B).getD j 0 :=
  schedWord_of_read (Memory.read_writeList_take s.W hj (by simpa using hk))

theorem bufWord_scheduling (hlen : B.length = 64) (hBUF : s.BUF = Memory.ofList B) (hk : k < 16) :
    bufWord (scheduling s B k).endTurn (4 * k) = (sched B).getD k 0 := by
  have hread {a : Nat} (ha : a < 64) : Memory.read (scheduling s B k).endTurn.BUF a = some (B.getD a 0) := by
    change Memory.read s.BUF a = _
    rw [hBUF, Memory.read_ofList, List.getD_eq_getElem _ _ (by omega), List.getElem?_eq_getElem]
  rw [bufWord_of_reads (hread (by omega)) (hread (by omega)) (hread (by omega)) (hread (by omega)),
    sched_getD_of_lt B hk, parse_getD B hk]

theorem nextSchedWord_scheduling (hge : 16 ≤ k) (hk : k < 64) :
    nextSchedWord (scheduling s B k).endTurn k = (sched B).getD k 0 := by
  have hword {j : Nat} (hj : j < k) := schedWord_scheduling (s := s) (B := B) hj hk.le
  rw [sched_getD_of_ge B hge hk, recurrenceWord, nextSchedWord, hword (by omega), hword (by omega),
    hword (by omega), hword (by omega)]

/-- The state after one more step: one more word in `W`. -/
theorem scheduling_succ (hk : k < 64) :
    scheduling s B (k + 1) = { (scheduling s B k).endTurn with
      PHASE := schedPhase (k + 1), T := BitVec.ofNat 6 (k + 1)
      W := Memory.write (scheduling s B k).W k ((sched B).getD k 0) } := by
  simp only [scheduling, State.endTurn, List.tail_drop,
    Memory.writeList_take_succ s.W (sched B) (k := k) (by simpa using hk)]

theorem step_scheduling (hlen : B.length = 64) (hBUF : s.BUF = Memory.ofList B)
    (hturns : ∀ a ∈ s.turns, a = .engine) (hk : k < 64) :
    (scheduling s B k).turnNow = .engine ∧ step (scheduling s B k) = .next (scheduling s B (k + 1)) := by
  have hturn : (scheduling s B k).turnNow = .engine :=
    turnNow_of_all_engine (all_engine_drop hturns k) scheduling_busy
  have hT : (scheduling s B k).endTurn.T.toNat = k := toNat_ofNat_of_lt hk
  refine ⟨hturn, ?_⟩
  rw [scheduling_succ hk]
  by_cases hlt : k < 16
  · have hp : (scheduling s B k).endTurn.PHASE = .loadw := if_pos hlt
    have hnext : schedPhase (k + 1) = if k = 15 then .expand else .loadw := by
      simp only [schedPhase]
      grind
    rw [step_engine hturn (i := .ldw) (congrArg some hp.symm), exec_ldw_of_phase hp (by omega), hT,
      bufWord_scheduling hlen hBUF hlt, hnext]
    rfl
  · have hp : (scheduling s B k).endTurn.PHASE = .expand := (if_neg hlt).trans (if_pos hk)
    have hnext : schedPhase (k + 1) = if k = 63 then .initw else .expand := by
      simp only [schedPhase]
      grind
    rw [step_engine hturn (i := .exp) (congrArg some hp.symm), exec_exp_of_phase hp (by omega), hT,
      nextSchedWord_scheduling (by omega) hk, hnext, wrapped_index]
    rfl

/-- The scheduler's 64 steps. -/
theorem path_schedule (hp : s.PHASE = .loadw) (hT : s.T = 0) (hlen : B.length = 64)
    (hBUF : s.BUF = Memory.ofList B) (hW : Memory.wf 64 s.W = true) (hturns : ∀ a ∈ s.turns, a = .engine) :
    Path s (List.replicate 64 .engine) [] { s with
      PHASE := .initw, T := 0, W := Memory.ofList (sched B), turns := s.turns.drop 64 } := by
  have hpath := Path.of_engine_steps (scheduling s B) 64 fun k hk => by
    obtain ⟨hturn, hstep⟩ := step_scheduling hlen hBUF hturns hk
    refine ⟨hturn, ?_, ?_, hstep⟩
    · intro hdone
      have hb := scheduling_busy (s := s) (B := B) (k := k)
      rw [hdone] at hb
      cases hb
    · by_cases hlt : k < 16
      · exact loadedBy_of_eq (if_pos hlt)
      · refine loadedBy_of_ne ?_
        simp only [scheduling, schedPhase]
        grind
  have hstart : scheduling s B 0 = s := by
    cases s
    cases hp
    cases hT
    rfl
  have hend : Memory.writeList s.W 0 ((sched B).take 64) = Memory.ofList (sched B) := by
    rw [List.take_of_length_le (by simp)]
    exact Memory.writeList_full hW (sched_length B)
  rw [hstart] at hpath
  simp only [scheduling, hend] at hpath
  exact hpath

end Scheduler

/-- Settles O54. -/
theorem schedulerComputesTheSchedule : Obligations.SchedulerComputesTheSchedule := by
  intro s B hp hT hlen hBUF hW hturns
  have hrun := (path_schedule hp hT hlen hBUF hW hturns).run_eq
  rwa [List.length_replicate] at hrun

/-! ## The compressor -/

/-- The state after the first step of the compressor and `k` rounds. -/
def rounding (s : State) (v : Regs8) (Wd : List Word) (k : Nat) : State :=
  { s with
    PHASE := if k < 64 then .round else .accum, T := BitVec.ofNat 6 k, R := some (afterRounds v Wd k)
    turns := s.turns.drop (k + 1) }

section Compressor

variable {s : State} {v : Regs8} {Wd : List Word} {k : Nat}

theorem step_rounding (hlen : Wd.length = 64) (hW : s.W = Memory.ofList Wd)
    (hturns : ∀ a ∈ s.turns, a = .engine) (hk : k < 64) :
    (rounding s v Wd k).turnNow = .engine ∧ step (rounding s v Wd k) = .next (rounding s v Wd (k + 1)) := by
  have hp : (rounding s v Wd k).PHASE = .round := if_pos hk
  have hturn : (rounding s v Wd k).turnNow = .engine :=
    turnNow_of_all_engine (all_engine_drop hturns (k + 1)) (by rw [hp]; rfl)
  have hT : (rounding s v Wd k).endTurn.T.toNat = k := toNat_ofNat_of_lt hk
  have hword : schedWord (rounding s v Wd k).endTurn k = Wd.getD k 0 := by
    refine schedWord_of_read ?_
    change Memory.read s.W k = _
    rw [hW, Memory.read_ofList, List.getD_eq_getElem _ _ (by omega), List.getElem?_eq_getElem]
  have hregs : readR (rounding s v Wd k).endTurn = afterRounds v Wd k := rfl
  have hphase : (if k = 63 then Phase.accum else .round) = if k + 1 < 64 then .round else .accum := by grind
  refine ⟨hturn, ?_⟩
  rw [step_engine hturn (i := .round) (congrArg some hp.symm),
    exec_round_of_phase (s := (rounding s v Wd k).endTurn) hp, hT, hword, hregs, hphase, wrapped_index]
  simp only [rounding, State.endTurn, List.tail_drop, afterRounds]

/-- `INITW`, the 64 rounds and `ACC`. -/
theorem path_compress (hp : s.PHASE = .initw) (hS : s.S = some v) (hlen : Wd.length = 64)
    (hW : s.W = Memory.ofList Wd) (hturns : ∀ a ∈ s.turns, a = .engine) :
    Path s (List.replicate 66 .engine) [] { s with
      S := some (compress v Wd), R := some (afterRounds v Wd 64), T := 0, turns := s.turns.drop 66
      PHASE := phaseAfterAcc s.TAIL } := by
  have hturn : s.turnNow = .engine := turnNow_of_all_engine hturns (by rw [hp]; rfl)
  have hinit : step s = .next (rounding s v Wd 0) := by
    rw [step_engine hturn (i := .initw) (congrArg some hp.symm), exec_initw_of_phase (s := s.endTurn) hp,
      readS_of_some (s := s.endTurn) hS, State.endTurn_eq_drop]
    rfl
  have hrounds := Path.of_engine_steps (rounding s v Wd) 64 fun k hk => by
    obtain ⟨hturn, hstep⟩ := step_rounding (v := v) hlen hW hturns hk
    have hne (j : Nat) (p : Phase) (hp : p ≠ .round ∧ p ≠ .accum) : (rounding s v Wd j).PHASE ≠ p := by
      simp only [rounding]
      grind
    exact ⟨hturn, hne k _ (by decide), loadedBy_of_ne (hne (k + 1) _ (by decide)), hstep⟩
  have hturn' : (rounding s v Wd 64).turnNow = .engine :=
    turnNow_of_all_engine (all_engine_drop hturns 65) rfl
  have hacc : step (rounding s v Wd 64) = .next { s with
      S := some (compress v Wd), R := some (afterRounds v Wd 64), T := 0, turns := s.turns.drop 66
      PHASE := phaseAfterAcc s.TAIL } := by
    rw [step_engine hturn' (i := .acc) rfl, exec_acc_of_phase (s := (rounding s v Wd 64).endTurn) rfl,
      readS_of_some (s := (rounding s v Wd 64).endTurn) hS]
    simp only [rounding, State.endTurn, List.tail_drop]
    rfl
  have hload : loadedBy (rounding s v Wd 64) { s with
      S := some (compress v Wd), R := some (afterRounds v Wd 64), T := 0, turns := s.turns.drop 66
      PHASE := phaseAfterAcc s.TAIL } = [] :=
    loadedBy_of_ne (by cases s.TAIL <;> simp [phaseAfterAcc])
  have hfirst := Path.single (by simp [hp]) hturn hinit
  rw [loadedBy_of_ne (by simp [rounding])] at hfirst
  have hlast := Path.single (by simp [rounding]) hturn' hacc
  rw [hload] at hlast
  exact (hfirst.trans hrounds).trans hlast

end Compressor

/-- A whole block: the scheduler's 64 steps and the compressor's 66. -/
theorem path_block {s : State} {B : List Byte} {v : Regs8} (hp : s.PHASE = .loadw) (hT : s.T = 0)
    (hlen : B.length = 64) (hBUF : s.BUF = Memory.ofList B) (hW : Memory.wf 64 s.W = true)
    (hS : s.S = some v) (hturns : ∀ a ∈ s.turns, a = .engine) :
    ∃ r, Path s (List.replicate 130 .engine) [] { s with
      S := some (blockFn v B), R := some r, W := Memory.ofList (sched B), T := 0, turns := s.turns.drop 130
      PHASE := phaseAfterAcc s.TAIL } := by
  have hschedule := path_schedule hp hT hlen hBUF hW hturns
  have hcompress := path_compress (Wd := sched B) (s := { s with
      PHASE := .initw, T := 0, W := Memory.ofList (sched B), turns := s.turns.drop 64 }) rfl hS
    (sched_length B) (by simp only) (all_engine_drop hturns 64)
  have hpath := hschedule.trans hcompress
  simp only [List.drop_drop] at hpath
  exact ⟨_, hpath⟩

/-- The phase after `ACC`, as the statements write it. -/
theorem phaseAfterAcc_eq_match (k : Tail) : phaseAfterAcc k = match k with
    | .none => .absorb
    | .more => .pad2
    | .last => .done := by
  cases k <;> rfl

/-- Settles O55: the two paths above. -/
theorem compressorComputesCompress : Obligations.CompressorComputesCompress := by
  refine ⟨fun s v Wd hp _ hS hlen hW hturns => ?_, fun s B v hp hT hlen hBUF hW hS hturns => ?_⟩
  · have hrun := (path_compress hp hS hlen hW hturns).run_eq
    rw [List.length_replicate, phaseAfterAcc_eq_match] at hrun
    exact ⟨_, hrun⟩
  · obtain ⟨r, hpath⟩ := path_block hp hT hlen hBUF hW hS hturns
    have hrun := hpath.run_eq
    rw [List.length_replicate, phaseAfterAcc_eq_match] at hrun
    exact ⟨r, hrun⟩

end Sys2Proof.Machine
end

section
/-! The last blocks of the padding, and the padder that leaves them in `BUF` (spec 41_padder.md rules R110, R115
to R117). -/

namespace Sys2Proof.Machine

/-- The bytes of a message that do not fill a block. -/
def openBytes (P : List Byte) : List Byte := P.drop (64 * (P.length / 64))

theorem openBytes_length (P : List Byte) : (openBytes P).length = P.length % 64 := by
  rw [openBytes, List.length_drop]
  omega

/-- The length field of the padding. -/
def lengthField (M : List Byte) : BitVec 64 := BitVec.ofNat 64 (8 * M.length)

/-- The padding from the open block on. -/
theorem pad_drop_open (M : List Byte) :
    (pad M).drop (64 * (M.length / 64))
      = openBytes M ++ 0x80 :: (List.replicate (zeroCount M.length) 0 ++ be64 (lengthField M)) := by
  rw [pad, List.drop_append_of_le_length (Nat.mul_div_le _ _)]
  rfl

section

variable {M : List Byte}

theorem pad_drop_open_of_le (h : M.length % 64 ≤ 55) :
    (pad M).drop (64 * (M.length / 64)) = openBytes M ++ pad1Bytes (M.length % 64) (lengthField M) := by
  rw [pad_drop_open, pad1Bytes_of_le _ h, zeroCount_of_le h]

/-- Of the `119 - n` zeros, `63 - n` end the open block and 56 begin the last. -/
theorem pad_drop_open_of_ge (h : 56 ≤ M.length % 64) :
    (pad M).drop (64 * (M.length / 64))
      = (openBytes M ++ pad1Bytes (M.length % 64) (lengthField M)) ++ pad2Bytes (lengthField M) := by
  have hzeros : 119 - M.length % 64 = (63 - M.length % 64) + 56 := by omega
  rw [pad_drop_open, pad1Bytes_of_ge _ h, zeroCount_of_ge h, hzeros, List.replicate_add]
  simp [pad2Bytes, Config.lengthAt]

theorem open_append_pad1Bytes_length :
    (openBytes M ++ pad1Bytes (M.length % 64) (lengthField M)).length = 64 := by
  rw [List.length_append, openBytes_length]
  exact pad1Bytes_length _ (Nat.mod_lt _ (by decide))

/-- The block that `PAD1` completes. -/
theorem blockAt_pad_open :
    blockAt (pad M) (M.length / 64) = openBytes M ++ pad1Bytes (M.length % 64) (lengthField M) := by
  rw [blockAt]
  by_cases h : M.length % 64 ≤ 55
  · rw [pad_drop_open_of_le h, List.take_of_length_le open_append_pad1Bytes_length.le]
  · rw [pad_drop_open_of_ge (by omega), List.take_left' open_append_pad1Bytes_length]

/-- The block that `PAD2` writes. -/
theorem blockAt_pad_last (h : 56 ≤ M.length % 64) :
    blockAt (pad M) (M.length / 64 + 1) = pad2Bytes (lengthField M) := by
  rw [blockAt, Nat.mul_add, Nat.mul_one, ← List.drop_drop, pad_drop_open_of_ge h,
    List.drop_left' open_append_pad1Bytes_length, List.take_of_length_le (by simp)]

theorem blockCount_of_le (h : M.length % 64 ≤ 55) : blockCount M.length = M.length / 64 + 1 := by
  unfold blockCount
  omega

theorem blockCount_of_ge (h : 56 ≤ M.length % 64) : blockCount M.length = M.length / 64 + 2 := by
  unfold blockCount
  omega

/-- `PAD1` on a buffer that begins with the open bytes. -/
theorem pad1_fill {m : List Host.Cell} (hm : Memory.wf 64 m = true) :
    Memory.writeList (Memory.writeList m 0 (openBytes M)) (M.length % 64)
        (pad1Bytes (M.length % 64) (lengthField M))
      = Memory.ofList (blockAt (pad M) (M.length / 64)) := by
  have happend := Memory.writeList_append m 0 (openBytes M) (pad1Bytes (M.length % 64) (lengthField M))
  rw [openBytes_length, Nat.zero_add] at happend
  rw [← happend, blockAt_pad_open, Memory.writeList_full hm open_append_pad1Bytes_length]

/-- `PAD2` on any buffer. -/
theorem pad2_fill {m : List Host.Cell} (hm : Memory.wf 64 m = true) (h : 56 ≤ M.length % 64) :
    Memory.writeList m 0 (pad2Bytes (lengthField M)) = Memory.ofList (blockAt (pad M) (M.length / 64 + 1)) := by
  rw [blockAt_pad_last h, Memory.writeList_full hm (pad2Bytes_length _)]

end

/-- Settles O56: the open bytes and what `PAD1` writes after them are one block of the padding, and `PAD2`
writes the next. -/
theorem padderBuildsTheLastBlocks : Obligations.PadderBuildsTheLastBlocks := by
  intro s M hM hp hN hLEN hBUF hwf
  have hlen : s.LEN = lengthField M := by
    refine BitVec.eq_of_toNat_eq ?_
    rw [hLEN, lengthField, BitVec.toNat_ofNat, Nat.mod_eq_of_lt (by omega)]
  have hfill : Memory.writeList s.BUF s.N.toNat (pad1Bytes s.N.toNat s.LEN)
      = Memory.ofList (blockAt (pad M) (M.length / 64)) := by
    rw [hBUF, hN, hlen]
    exact pad1_fill hwf
  refine ⟨_, exec_pad1_of_phase hp, ?_, ?_, fun hmore u hu hulen huwf => ?_⟩
  · rw [blocksOf_getD (div_lt_blockCount _)]
    exact hfill
  · simp only [hN, Config.lengthAt, blockCount]
    split
    · simp
      omega
    · simp
      omega
  · have hge : 56 ≤ M.length % 64 := by
      by_contra hlt
      simp only [hN, Config.lengthAt, if_pos (Nat.lt_of_not_le hlt)] at hmore
      cases hmore
    have hlast : Memory.writeList u.BUF 0 (pad2Bytes u.LEN)
        = Memory.ofList (blockAt (pad M) (M.length / 64 + 1)) := by
      rw [hulen, hlen, pad2_fill huwf hge]
    refine ⟨_, exec_pad2_of_phase hu, ?_, blockCount_of_ge hge⟩
    rw [hlast, blocksOf_getD (by rw [blockCount_of_ge hge]; omega)]

end Sys2Proof.Machine
end

section
/-! A transaction with no turn listed, command by command (spec 44_engine_and_commands.md rules R172, R173). -/

namespace Sys2Proof.Machine

/-! ## The command words -/

theorem decode_pushWord (b : Byte) : decode (.cmd (pushWord b)) = .ok (.push b) := by
  have hword : pushWord b = 2#4 ++ b := (append_eq_add_setWidth 2 b).symm
  rw [hword, decode_cmd_append]
  rfl

theorem decode_readWord {i : Nat} (hi : i < 32) : decode (.cmd (readWord i)) = .ok (.read (BitVec.ofNat 8 i)) := by
  have hidx : (BitVec.ofNat 8 i).setWidth 12 = BitVec.ofNat 12 i := by bv_omega
  have hword : readWord i = 4#4 ++ BitVec.ofNat 8 i := by
    rw [append_eq_add_setWidth, hidx]
    rfl
  have hlt : i % 256 < 32 := by omega
  rw [hword, decode_cmd_append]
  simp [hlt]

theorem endTurn_of_nil {s : State} (hturns : s.turns = []) : s.endTurn = s := by
  rw [State.endTurn_eq_drop, hturns, List.drop_nil, ← hturns]

/-! ## The agents of a path -/

/-- Of the steps `h` are the host's, `e` the engine's, and there are no others. -/
def Agents (ms : List Turn) (h e : Nat) : Prop :=
  ms.count .host = h ∧ ms.count .engine = e ∧ ms.length = h + e

theorem Agents.host : Agents [.host] 1 0 := ⟨rfl, rfl, rfl⟩

theorem Agents.engine (n : Nat) : Agents (List.replicate n .engine) 0 n := by
  simp [Agents, List.count_replicate]

theorem Agents.append {ms ms' : List Turn} {h e h' e' : Nat} (ha : Agents ms h e) (ha' : Agents ms' h' e') :
    Agents (ms ++ ms') (h + h') (e + e') := by
  obtain ⟨hh, he, hl⟩ := ha
  obtain ⟨hh', he', hl'⟩ := ha'
  refine ⟨by rw [List.count_append, hh, hh'], by rw [List.count_append, he, he'], ?_⟩
  rw [List.length_append, hl, hl']
  omega

/-! ## A step that hands a block to the scheduler -/

theorem Memory.contents_ofList {w : Nat} (vs : List (BitVec w)) : Memory.contents (Memory.ofList vs) = vs :=
  Memory.contents_listFrom vs 0

/-- What the 130 engine steps leave, from a state `t` that holds the block `B` and the chaining value `v`. -/
structure BlockDone (t : State) (v : Regs8) (B : List Byte) (u : State) : Prop where
  phase : u.PHASE = phaseAfterAcc t.TAIL
  tail : u.TAIL = t.TAIL
  fill : u.N = t.N
  index : u.T = 0
  len : u.LEN = t.LEN
  chain : u.S = some (blockFn v B)
  buf : u.BUF = t.BUF
  words : Memory.wf 64 u.W = true
  cmds : u.cmds = t.cmds
  turns : u.turns = []
  resp : u.resp = t.resp

/-- The step that enters `LOADW` and the 130 engine steps after it. -/
theorem path_load {s t : State} {a : Turn} {B : List Byte} {v : Regs8} (hdone : s.PHASE ≠ .done)
    (hs : s.PHASE ≠ .loadw) (hturn : s.turnNow = a) (hstep : step s = .next t) (hp : t.PHASE = .loadw)
    (hT : t.T = 0) (hlen : B.length = 64) (hBUF : t.BUF = Memory.ofList B) (hW : Memory.wf 64 t.W = true)
    (hS : t.S = some v) (hturns : t.turns = []) :
    ∃ u, Path s (a :: List.replicate 130 .engine) [B] u ∧ BlockDone t v B u := by
  obtain ⟨r, hblock⟩ := path_block hp hT hlen hBUF hW hS (by simp [hturns])
  have hload : loadedBy s t = [B] := by
    rw [loadedBy, if_pos ⟨hs, hp⟩, hBUF, Memory.contents_ofList]
  have hfirst := Path.single hdone hturn hstep
  rw [hload] at hfirst
  have hwords : Memory.wf 64 (Memory.ofList (sched B)) = true := Memory.wf_ofList _ (by simp)
  have hdrop : t.turns.drop 130 = [] := by rw [hturns, List.drop_nil]
  rw [hdrop] at hblock
  refine ⟨_, hfirst.trans hblock, ?_⟩
  generalize Memory.ofList (sched B) = W at hwords
  exact ⟨rfl, rfl, rfl, rfl, rfl, by simp only, rfl, hwords, rfl, rfl, rfl⟩

/-! ## Absorbing the message -/

/-- The chaining value after the first `i` blocks of `M` (R160). -/
def chainValue (M : List Byte) (i : Nat) : Regs8 := ((blocksOf M).take i).foldl blockFn romIV

theorem blocksOf_take_succ {M : List Byte} {i : Nat} (hi : i < blockCount M.length) :
    (blocksOf M).take (i + 1) = (blocksOf M).take i ++ [blockAt (pad M) i] := by
  rw [List.take_add_one, blocksOf_getElem? hi]
  rfl

theorem chainValue_succ {M : List Byte} {i : Nat} (hi : i < blockCount M.length) :
    chainValue M (i + 1) = blockFn (chainValue M i) (blockAt (pad M) i) := by
  rw [chainValue, blocksOf_take_succ hi, List.foldl_append]
  rfl

theorem ser_chainValue (M : List Byte) : ser (chainValue M (blockCount M.length)) = digest M := by
  rw [chainValue, List.take_of_length_le (by simp), digest]

/-- The engine has accepted the first `n` bytes of `M` and waits for the next command; the words `rest` follow the
transaction, and `out` has been delivered. -/
structure Absorbing (M : List Byte) (rest : List (BitVec 12)) (out : List Byte) (n : Nat) (s : State) : Prop where
  phase : s.PHASE = .absorb
  tail : s.TAIL = .none
  index : s.T = 0
  fill : s.N.toNat = n % 64
  len : s.LEN = BitVec.ofNat 64 (8 * n)
  chain : s.S = some (chainValue M (n / 64))
  buf : ∃ m, Memory.wf 64 m = true ∧ s.BUF = Memory.writeList m 0 (openBytes (M.take n))
  words : Memory.wf 64 s.W = true
  cmds : s.cmds = (M.drop n).map pushWord ++ 0x300 :: rest
  turns : s.turns = []
  resp : s.resp = out

section Absorb

variable {M : List Byte} {rest : List (BitVec 12)} {out : List Byte} {n : Nat} {s : State}

theorem Absorbing.turnNow (h : Absorbing M rest out n s) : s.turnNow = .host := by
  rw [turnNow_of_nil h.turns, h.phase]
  rfl

theorem openBytes_take_succ_of_lt (hn : n < M.length) (hfull : n % 64 ≠ 63) :
    openBytes (M.take (n + 1)) = openBytes (M.take n) ++ [M[n]] := by
  have hdiv : (n + 1) / 64 = n / 64 := by omega
  rw [openBytes, openBytes, List.length_take_of_le hn, List.length_take_of_le hn.le, hdiv,
    List.take_succ_eq_append_getElem hn, List.drop_append_of_le_length]
  rw [List.length_take_of_le hn.le]
  omega

theorem openBytes_take_append_of_full (hn : n < M.length) (hfull : n % 64 = 63) :
    openBytes (M.take n) ++ [M[n]] = blockAt (pad M) (n / 64) := by
  rw [blockAt_pad_of_lt (by omega), blockAt, openBytes, List.length_take_of_le hn.le, List.drop_take]
  have hlast : n - 64 * (n / 64) < (M.drop (64 * (n / 64))).length := by
    rw [List.length_drop]
    omega
  have hcount : n - 64 * (n / 64) + 1 = 64 := by omega
  have hbyte : (M.drop (64 * (n / 64)))[n - 64 * (n / 64)] = M[n] := by
    rw [List.getElem_drop]
    congr 1
    omega
  rw [← hbyte, ← List.take_succ_eq_append_getElem hlast, hcount]

theorem openBytes_take_of_full (hn : n < M.length) (hfull : n % 64 = 63) : openBytes (M.take (n + 1)) = [] := by
  rw [openBytes, List.length_take_of_le hn, List.drop_eq_nil_of_le]
  rw [List.length_take_of_le hn]
  omega

/-- The state after `PUSH` of the next byte. -/
theorem Absorbing.step_push (h : Absorbing M rest out n s) (hn : n < M.length) :
    step s = .next { s with
      BUF := Memory.write s.BUF s.N.toNat M[n]
      LEN := s.LEN + 8
      N := if s.N.toNat = 63 then 0 else BitVec.ofNat 6 (s.N.toNat + 1)
      T := if s.N.toNat = 63 then 0 else s.T
      PHASE := if s.N.toNat = 63 then .loadw else .absorb
      cmds := s.cmds.tail } := by
  have hcmds : s.cmds = pushWord M[n] :: ((M.drop (n + 1)).map pushWord ++ 0x300 :: rest) := by
    rw [h.cmds, List.drop_eq_getElem_cons hn]
    rfl
  rw [step_host h.turnNow hcmds (decode_pushWord _), endTurn_of_nil h.turns, exec_push_of_phase _ h.phase]
  rfl

theorem Absorbing.cmds_tail (h : Absorbing M rest out n s) (hn : n < M.length) :
    s.cmds.tail = (M.drop (n + 1)).map pushWord ++ 0x300 :: rest := by
  rw [h.cmds, List.drop_eq_getElem_cons hn]
  rfl

theorem Absorbing.len_add (h : Absorbing M rest out n s) : s.LEN + 8 = BitVec.ofNat 64 (8 * (n + 1)) := by
  rw [h.len, Nat.mul_succ, BitVec.ofNat_add]
  rfl

/-- The byte goes after the open bytes. -/
theorem Absorbing.write_next (h : Absorbing M rest out n s) (hn : n < M.length) :
    ∃ m, Memory.wf 64 m = true ∧
      Memory.write s.BUF s.N.toNat M[n] = Memory.writeList m 0 (openBytes (M.take n) ++ [M[n]]) := by
  obtain ⟨m, hm, hbuf⟩ := h.buf
  have hopen : (openBytes (M.take n)).length = n % 64 := by rw [openBytes_length, List.length_take_of_le hn.le]
  refine ⟨m, hm, ?_⟩
  rw [Memory.writeList_append, ← hbuf, hopen, Nat.zero_add, h.fill]
  rfl

/-- A byte that does not fill the block: the host's step alone. -/
theorem Absorbing.path_push_of_lt (h : Absorbing M rest out n s) (hn : n < M.length) (hfull : n % 64 ≠ 63) :
    ∃ t, Path s [.host] [] t ∧ Absorbing M rest out (n + 1) t := by
  have hstep := h.step_push hn
  obtain ⟨m, hm, hwrite⟩ := h.write_next hn
  have hdiv : (n + 1) / 64 = n / 64 := by omega
  have hmod : (n + 1) % 64 = n % 64 + 1 := by omega
  have hlt : s.N.toNat + 1 < 64 := by
    rw [h.fill]
    omega
  rw [h.fill, if_neg hfull, if_neg hfull, if_neg hfull, ← h.fill, hwrite] at hstep
  have hpath := Path.single (by simp [h.phase]) h.turnNow hstep
  rw [loadedBy_of_ne (by simp)] at hpath
  exact ⟨_, hpath, {
    phase := rfl
    tail := h.tail
    index := h.index
    fill := by rw [toNat_ofNat_of_lt hlt, h.fill, hmod]
    len := h.len_add
    chain := hdiv ▸ h.chain
    buf := ⟨m, hm, by rw [openBytes_take_succ_of_lt hn hfull]⟩
    words := h.words
    cmds := h.cmds_tail hn
    turns := h.turns
    resp := h.resp }⟩

/-- The 64th byte of a block: the host's step hands the block to the scheduler, and 130 engine steps process
it. -/
theorem Absorbing.path_push_of_full (h : Absorbing M rest out n s) (hn : n < M.length) (hfull : n % 64 = 63) :
    ∃ t, Path s (.host :: List.replicate 130 .engine) [blockAt (pad M) (n / 64)] t ∧
      Absorbing M rest out (n + 1) t := by
  have hstep := h.step_push hn
  obtain ⟨m, hm, hwrite⟩ := h.write_next hn
  have hblock : n / 64 < blockCount M.length := by
    unfold blockCount
    omega
  have hdiv : (n + 1) / 64 = n / 64 + 1 := by omega
  have hmod : (n + 1) % 64 = 0 := by omega
  have hB : (blockAt (pad M) (n / 64)).length = 64 := blockAt_pad_length hblock
  rw [h.fill, if_pos hfull, if_pos hfull, if_pos hfull, ← h.fill, hwrite, openBytes_take_append_of_full hn hfull,
    Memory.writeList_full hm hB] at hstep
  obtain ⟨u, hpath, hu⟩ := path_load (by simp [h.phase]) (by simp [h.phase]) h.turnNow hstep rfl rfl hB
    (by simp only) h.words h.chain h.turns
  exact ⟨u, hpath, {
    phase := by rw [hu.phase, h.tail]; rfl
    tail := hu.tail.trans h.tail
    index := hu.index
    fill := by rw [hu.fill, hmod]; rfl
    len := hu.len.trans h.len_add
    chain := by rw [hu.chain, hdiv, chainValue_succ hblock]
    buf := ⟨_, Memory.wf_ofList _ hB.le, by rw [hu.buf, openBytes_take_of_full hn hfull, Memory.writeList]⟩
    words := hu.words
    cmds := hu.cmds.trans (h.cmds_tail hn)
    turns := hu.turns
    resp := hu.resp.trans h.resp }⟩

theorem Absorbing.path_push (h : Absorbing M rest out n s) (hn : n < M.length) :
    ∃ t ms bs, Path s ms bs t ∧ Absorbing M rest out (n + 1) t ∧
      (blocksOf M).take ((n + 1) / 64) = (blocksOf M).take (n / 64) ++ bs ∧
      Agents ms 1 (130 * ((n + 1) / 64 - n / 64)) := by
  by_cases hfull : n % 64 = 63
  · obtain ⟨t, hpath, ht⟩ := h.path_push_of_full hn hfull
    have hdiv : (n + 1) / 64 = n / 64 + 1 := by omega
    refine ⟨t, _, _, hpath, ht, ?_, ?_⟩
    · rw [hdiv, blocksOf_take_succ (by unfold blockCount; omega)]
    · rw [hdiv, Nat.add_sub_cancel_left]
      exact Agents.host.append (Agents.engine 130)
  · obtain ⟨t, hpath, ht⟩ := h.path_push_of_lt hn hfull
    have hdiv : (n + 1) / 64 = n / 64 := by omega
    refine ⟨t, _, _, hpath, ht, ?_, ?_⟩
    · rw [hdiv, List.append_nil]
    · rw [hdiv, Nat.sub_self]
      exact Agents.host

/-- The first `n` bytes. -/
theorem Absorbing.path_bytes (h : Absorbing M rest out 0 s) (hn : n ≤ M.length) :
    ∃ t ms, Path s ms ((blocksOf M).take (n / 64)) t ∧ Absorbing M rest out n t ∧
      Agents ms n (130 * (n / 64)) := by
  induction n with
  | zero => exact ⟨s, [], .refl s, h, rfl, rfl, rfl⟩
  | succ n ih =>
    obtain ⟨t, ms, hpath, ht, hagents⟩ := ih (Nat.le_of_succ_le hn)
    obtain ⟨u, ms', bs', hpath', hu, hbs, hagents'⟩ := ht.path_push hn
    refine ⟨u, ms ++ ms', hbs ▸ hpath.trans hpath', hu, ?_⟩
    have hsum : 130 * (n / 64) + 130 * ((n + 1) / 64 - n / 64) = 130 * ((n + 1) / 64) := by omega
    exact hsum ▸ hagents.append hagents'

end Absorb

/-! ## Closing the message -/

section Close

variable {M : List Byte} {rest : List (BitVec 12)} {out : List Byte} {s : State} {v : Regs8}

/-- The engine's turn with no turn listed. -/
theorem step_engine_of_nil {i : Instr} (hturns : s.turns = []) (hi : microPhase i = some s.PHASE) :
    s.turnNow = .engine ∧ step s = exec i s := by
  have hturn : s.turnNow = .engine := by rw [turnNow_of_nil hturns, if_pos (busy_of_microPhase hi).1]
  refine ⟨hturn, ?_⟩
  rw [step_engine hturn hi, endTurn_of_nil hturns]

/-- What stays of a state from the padder's step on to the end of the block. -/
structure PadDone (s : State) (k : Tail) (v : Regs8) (B : List Byte) (u : State) : Prop where
  phase : u.PHASE = phaseAfterAcc k
  len : u.LEN = s.LEN
  chain : u.S = some (blockFn v B)
  buf : Memory.wf 64 u.BUF = true
  words : Memory.wf 64 u.W = true
  cmds : u.cmds = s.cmds
  turns : u.turns = []
  resp : u.resp = s.resp

theorem path_pad1 (hp : s.PHASE = .pad1) (hN : s.N.toNat = M.length % 64) (hlen : s.LEN = lengthField M)
    (hbuf : ∃ m, Memory.wf 64 m = true ∧ s.BUF = Memory.writeList m 0 (openBytes M))
    (hW : Memory.wf 64 s.W = true) (hS : s.S = some v) (hturns : s.turns = []) :
    ∃ u, Path s (List.replicate 131 .engine) [blockAt (pad M) (M.length / 64)] u ∧
      PadDone s (if M.length % 64 < 56 then .last else .more) v (blockAt (pad M) (M.length / 64)) u := by
  obtain ⟨m, hm, hbuf⟩ := hbuf
  have hB : (blockAt (pad M) (M.length / 64)).length = 64 := blockAt_pad_length (div_lt_blockCount _)
  obtain ⟨hturn, hstep⟩ := step_engine_of_nil (i := .pad1) hturns (congrArg some hp.symm)
  rw [exec_pad1_of_phase hp, hN, hlen, hbuf, pad1_fill hm] at hstep
  obtain ⟨u, hpath, hu⟩ := path_load (by simp [hp]) (by simp [hp]) hturn hstep rfl rfl hB (by simp only) hW hS
    hturns
  exact ⟨u, hpath, {
    phase := hu.phase
    len := hu.len.trans hlen.symm
    chain := hu.chain
    buf := by rw [hu.buf]; exact Memory.wf_ofList _ hB.le
    words := hu.words
    cmds := hu.cmds
    turns := hu.turns
    resp := hu.resp }⟩

theorem path_pad2 (hp : s.PHASE = .pad2) (hge : 56 ≤ M.length % 64) (hlen : s.LEN = lengthField M)
    (hbuf : Memory.wf 64 s.BUF = true) (hW : Memory.wf 64 s.W = true) (hS : s.S = some v)
    (hturns : s.turns = []) :
    ∃ u, Path s (List.replicate 131 .engine) [blockAt (pad M) (M.length / 64 + 1)] u ∧
      PadDone s .last v (blockAt (pad M) (M.length / 64 + 1)) u := by
  have hB : (blockAt (pad M) (M.length / 64 + 1)).length = 64 :=
    blockAt_pad_length (by rw [blockCount_of_ge hge]; omega)
  obtain ⟨hturn, hstep⟩ := step_engine_of_nil (i := .pad2) hturns (congrArg some hp.symm)
  rw [exec_pad2_of_phase hp, hlen, pad2_fill hbuf hge] at hstep
  obtain ⟨u, hpath, hu⟩ := path_load (by simp [hp]) (by simp [hp]) hturn hstep rfl rfl hB (by simp only) hW hS
    hturns
  exact ⟨u, hpath, {
    phase := hu.phase
    len := hu.len.trans hlen.symm
    chain := hu.chain
    buf := by rw [hu.buf]; exact Memory.wf_ofList _ hB.le
    words := hu.words
    cmds := hu.cmds
    turns := hu.turns
    resp := hu.resp }⟩

/-- The digest is in `S`, `rest` is presented and `out` has been delivered. -/
structure Digested (M : List Byte) (rest : List (BitVec 12)) (out : List Byte) (s : State) : Prop where
  phase : s.PHASE = .done
  chain : s.S = some (chainValue M (blockCount M.length))
  cmds : s.cmds = rest
  turns : s.turns = []
  resp : s.resp = out

theorem PadDone.digested {u : State} {i : Nat} (h : PadDone s .last (chainValue M i) (blockAt (pad M) i) u)
    (hi : i + 1 = blockCount M.length) (hcmds : s.cmds = rest) (hresp : s.resp = out) :
    Digested M rest out u where
  phase := h.phase
  chain := by rw [h.chain, ← hi, chainValue_succ (by omega)]
  cmds := h.cmds.trans hcmds
  turns := h.turns
  resp := h.resp.trans hresp

/-- The padder's one or two blocks. -/
theorem path_padder (hp : s.PHASE = .pad1) (hN : s.N.toNat = M.length % 64) (hlen : s.LEN = lengthField M)
    (hbuf : ∃ m, Memory.wf 64 m = true ∧ s.BUF = Memory.writeList m 0 (openBytes M))
    (hW : Memory.wf 64 s.W = true) (hS : s.S = some (chainValue M (M.length / 64))) (hturns : s.turns = [])
    (hcmds : s.cmds = rest) (hresp : s.resp = out) :
    ∃ u ms bs, Path s ms bs u ∧ Digested M rest out u ∧
      (blocksOf M).take (M.length / 64) ++ bs = blocksOf M ∧
      Agents ms 0 (130 * (blockCount M.length - M.length / 64) + if M.length % 64 ≤ 55 then 1 else 2) := by
  have hall : (blocksOf M).take (blockCount M.length) = blocksOf M := List.take_of_length_le (by simp)
  obtain ⟨u, hpath, hu⟩ := path_pad1 hp hN hlen hbuf hW hS hturns
  by_cases hle : M.length % 64 ≤ 55
  · have hcount := blockCount_of_le hle
    rw [if_pos (Nat.lt_succ_of_le hle)] at hu
    refine ⟨u, _, _, hpath, hu.digested hcount.symm hcmds hresp, ?_, ?_⟩
    · rw [← blocksOf_take_succ (div_lt_blockCount _), ← hcount, hall]
    · rw [if_pos hle, hcount, Nat.add_sub_cancel_left]
      exact Agents.engine 131
  · have hge : 56 ≤ M.length % 64 := by omega
    have hcount := blockCount_of_ge hge
    rw [if_neg (by omega)] at hu
    have hchain := hu.chain
    rw [← chainValue_succ (div_lt_blockCount _)] at hchain
    obtain ⟨u', hpath', hu'⟩ := path_pad2 hu.phase hge (hu.len.trans hlen) hu.buf hu.words hchain hu.turns
    refine ⟨u', _, _, hpath.trans hpath', hu'.digested hcount.symm (hu.cmds.trans hcmds) (hu.resp.trans hresp),
      ?_, ?_⟩
    · rw [← List.append_assoc, ← blocksOf_take_succ (div_lt_blockCount _),
        ← blocksOf_take_succ (by omega), ← hcount, hall]
    · rw [if_neg hle, hcount, Nat.add_sub_cancel_left]
      exact (Agents.engine 131).append (Agents.engine 131)

/-- `FINISH` and the padder. -/
theorem Absorbing.path_finish (h : Absorbing M rest out M.length s) :
    ∃ u ms bs, Path s ms bs u ∧ Digested M rest out u ∧
      (blocksOf M).take (M.length / 64) ++ bs = blocksOf M ∧
      Agents ms 1 (130 * (blockCount M.length - M.length / 64) + if M.length % 64 ≤ 55 then 1 else 2) := by
  have hcmds : s.cmds = 0x300 :: rest := by rw [h.cmds, List.drop_length]; rfl
  have hstep : step s = .next { s with PHASE := .pad1, T := 0, cmds := s.cmds.tail } := by
    rw [step_host h.turnNow hcmds rfl, endTurn_of_nil h.turns, exec_finish_of_phase h.phase]
    rfl
  have hfirst := Path.single (by simp [h.phase]) h.turnNow hstep
  rw [loadedBy_of_ne (by simp)] at hfirst
  have hbuf := h.buf
  rw [List.take_length] at hbuf
  obtain ⟨u, ms, bs, hpath, hu, hbs, hagents⟩ := path_padder (s := { s with
      PHASE := .pad1, T := 0, cmds := s.cmds.tail }) (rest := rest) rfl h.fill h.len hbuf h.words h.chain
    h.turns (by simp [hcmds]) h.resp
  refine ⟨u, _, _, hfirst.trans hpath, hu, hbs, ?_⟩
  have := Agents.host.append hagents
  rwa [Nat.zero_add] at this

end Close

/-! ## The whole transaction -/

section Transaction

variable {M : List Byte} {rest : List (BitVec 12)} {s : State}

theorem step_start (h : s.Inv) (hb : flagBusy s.PHASE = false) (hturns : s.turns = [])
    (hcmds : s.cmds = transaction M ++ rest) :
    ∃ t, s.turnNow = .host ∧ step s = .next t ∧ loadedBy s t = [] ∧ Absorbing M rest s.resp 0 t := by
  have hturn : s.turnNow = .host := by
    rw [turnNow_of_nil hturns, hb]
    rfl
  have hcmds' : s.cmds = 0x100 :: ((M.map pushWord ++ [0x300]) ++ rest) := hcmds
  have hstart : startEnabled s.PHASE = true := by rw [startEnabled_eq_not_flagBusy, hb]; rfl
  have hstep := step_host hturn hcmds' (i := .start) rfl
  rw [endTurn_of_nil hturns, exec_start_of_enabled hstart] at hstep
  refine ⟨_, hturn, hstep, loadedBy_of_ne (by simp), ?_⟩
  · exact {
      phase := rfl
      tail := rfl
      index := rfl
      fill := rfl
      len := rfl
      chain := rfl
      buf := ⟨s.BUF, h.bufCanonical, by simp [openBytes, Memory.writeList]⟩
      words := h.wCanonical
      cmds := by simp [hcmds']
      turns := hturns
      resp := rfl }

/-- With no turn listed, a transaction takes `L + 2` host steps and `130 * nb(L) + p` engine steps, hands the
blocks of the padding to the scheduler, and ends in `DONE`; only its first step can be taken in `DONE`. -/
theorem transaction_path (h : s.Inv) (hb : flagBusy s.PHASE = false) (hturns : s.turns = [])
    (hcmds : s.cmds = transaction M ++ rest) :
    ∃ t u ms, s.turnNow = .host ∧ step s = .next t ∧ loadedBy s t = [] ∧ Path t ms (blocksOf M) u ∧
      Digested M rest s.resp u ∧
      Agents ms (M.length + 1) (130 * blockCount M.length + if M.length % 64 ≤ 55 then 1 else 2) := by
  obtain ⟨t, hturn, hstep, hload, ht⟩ := step_start h hb hturns hcmds
  obtain ⟨t', ms, hpath, ht', hagents⟩ := ht.path_bytes (Nat.le_refl M.length)
  obtain ⟨u, ms', bs, hpath', hu, hbs, hagents'⟩ := ht'.path_finish
  refine ⟨t, u, ms ++ ms', hturn, hstep, hload, hbs ▸ hpath.trans hpath', hu, ?_⟩
  have hsum : 130 * (M.length / 64) + (130 * (blockCount M.length - M.length / 64) +
      if M.length % 64 ≤ 55 then 1 else 2) = 130 * blockCount M.length + if M.length % 64 ≤ 55 then 1 else 2 := by
    have := div_lt_blockCount M.length
    omega
  exact hsum ▸ hagents.append hagents'

end Transaction

/-- Settles O60: the agents of the path are counted, and before its end it is not in `DONE`. -/
theorem transactionStepCount : Obligations.TransactionStepCount := by
  rintro s M hostSteps engineSteps n h hb - hturns hcmds rfl rfl rfl
  obtain ⟨t, u, ms, hturn, hstep, -, hpath, hu, hhost, hengine, hlength⟩ :=
    transaction_path (rest := []) h hb hturns (by rw [hcmds, List.append_nil])
  have hn : M.length + 2 + (130 * blockCount M.length + if M.length % 64 ≤ 55 then 1 else 2) = ms.length + 1 := by
    omega
  have hmovers := movers_succ_of_step hstep ms.length
  rw [hturn, hpath.movers_eq] at hmovers
  rw [hn, hmovers, run_succ_of_step hstep, hpath.run_eq]
  refine ⟨?_, ?_, ⟨u, rfl, hu.phase⟩, fun k v hk hkn hrun => ?_⟩
  · rw [List.count_cons_self, hhost]
  · rw [List.count_cons_of_ne (by decide), hengine]
  · obtain ⟨k, rfl⟩ := Nat.exists_eq_add_of_le' hk
    rw [run_succ_of_step hstep] at hrun
    exact hpath.not_done (by omega) hrun

end Sys2Proof.Machine
end

section
/-! Every instruction treats the ports alike whatever stands there, so that a run under listed turns, with `STAT`
words among the commands, shadows the run without them (spec 44_engine_and_commands.md rules R170, R172). -/

namespace Sys2Proof.Machine

/-! ## Instructions and the ports -/

/-- The same engine with other things at the ports. -/
def State.withPorts (s : State) (cmds : List (BitVec 12)) (turns : List Turn) (resp : List Byte) : State :=
  { s with cmds := cmds, turns := turns, resp := resp }

/-- Whatever stands at the ports, `i` takes the engine from `s` to `t`, takes `k` words, and responds with the same
bytes. -/
def PortsUniform (k : Nat) (i : Instr) (s t : State) : Prop :=
  ∃ bs, t.cmds = s.cmds.drop k ∧ t.turns = s.turns ∧ t.resp = s.resp ++ bs ∧
    ∀ cmds turns resp,
      exec i (s.withPorts cmds turns resp) = .next (t.withPorts (cmds.drop k) turns (resp ++ bs))

theorem PortsUniform.silent {i : Instr} {s t : State} (hcmds : t.cmds = s.cmds) (hturns : t.turns = s.turns)
    (hresp : t.resp = s.resp)
    (h : ∀ cmds turns resp, exec i (s.withPorts cmds turns resp) = .next (t.withPorts cmds turns resp)) :
    PortsUniform 0 i s t := by
  refine ⟨[], hcmds, hturns, by rw [hresp, List.append_nil], fun cmds turns resp => ?_⟩
  rw [h, List.append_nil, List.drop_zero]

theorem PortsUniform.accepted {i : Instr} {s t : State} (bs : List Byte) (hcmds : t.cmds = s.cmds.tail)
    (hturns : t.turns = s.turns) (hresp : t.resp = s.resp ++ bs)
    (h : ∀ cmds turns resp,
      exec i (s.withPorts cmds turns resp) = .next (t.withPorts cmds.tail turns (resp ++ bs))) :
    PortsUniform 1 i s t := by
  refine ⟨bs, by rw [hcmds, List.drop_one], hturns, hresp, fun cmds turns resp => ?_⟩
  rw [h, List.drop_one]

section Exec

variable {s t : State}

theorem exec_micro_portsUniform {i : Instr} (hi : microPhase i = some s.PHASE) (hx : exec i s = .next t) :
    PortsUniform 0 i s t := by
  have hp {p : Phase} (h : some p = some s.PHASE) : s.PHASE = p := (Option.some.inj h).symm
  obtain ⟨-, hcmds, hturns, hresp, -⟩ := exec_micro_frame (busy_of_microPhase hi).2 hx
  refine .silent hcmds hturns hresp fun cmds turns resp => ?_
  cases i with
  | pad1 =>
    cases (exec_pad1_of_phase (hp hi)).symm.trans hx
    exact exec_pad1_of_phase (s := s.withPorts cmds turns resp) (hp hi)
  | pad2 =>
    cases (exec_pad2_of_phase (hp hi)).symm.trans hx
    simp only [exec, execPad2, State.withPorts, hp hi, if_true]
  | ldw =>
    obtain ⟨hne, -⟩ | ⟨-, hT, -⟩ := execLdw_next hx
    · exact absurd (hp hi) hne
    · cases (exec_ldw_of_phase (hp hi) (Nat.le_of_lt_succ hT)).symm.trans hx
      exact exec_ldw_of_phase (s := s.withPorts cmds turns resp) (hp hi) (Nat.le_of_lt_succ hT)
  | exp =>
    obtain ⟨hne, -⟩ | ⟨-, hT, -⟩ := execExp_next hx
    · exact absurd (hp hi) hne
    · cases (exec_exp_of_phase (hp hi) hT).symm.trans hx
      exact exec_exp_of_phase (s := s.withPorts cmds turns resp) (hp hi) hT
  | initw =>
    cases (exec_initw_of_phase (hp hi)).symm.trans hx
    exact exec_initw_of_phase (s := s.withPorts cmds turns resp) (hp hi)
  | round =>
    cases (exec_round_of_phase (hp hi)).symm.trans hx
    exact exec_round_of_phase (s := s.withPorts cmds turns resp) (hp hi)
  | acc =>
    cases (exec_acc_of_phase (hp hi)).symm.trans hx
    exact exec_acc_of_phase (s := s.withPorts cmds turns resp) (hp hi)
  | start | push | finish | read | stat | reset => cases hi

/-- A command takes no word or the one presented. -/
theorem exec_command_portsUniform {i : Instr} (hi : isMicroOperation i = false) (hreset : i ≠ .reset)
    (hx : exec i s = .next t) : PortsUniform 0 i s t ∨ PortsUniform 1 i s t := by
  cases i with
  | start =>
    obtain ⟨hs, rfl⟩ | ⟨hs, rfl⟩ := execStart_next hx
    · rw [startEnabled_eq_not_flagBusy, Bool.not_eq_false'] at hs
      exact .inl (.silent rfl rfl rfl fun _ _ _ => exec_start_waits hs)
    · refine .inr (.accepted [] rfl rfl (by simp) fun cmds turns resp => ?_)
      rw [exec_start_of_enabled (s := s.withPorts cmds turns resp) hs, List.append_nil]
      rfl
  | push b =>
    by_cases hp : s.PHASE = .absorb
    · cases (exec_push_of_phase b hp).symm.trans hx
      refine .inr (.accepted [] rfl rfl (by simp) fun cmds turns resp => ?_)
      rw [exec_push_of_phase (s := s.withPorts cmds turns resp) b hp, List.append_nil]
      rfl
    · cases (exec_push_waits b hp).symm.trans hx
      exact .inl (.silent rfl rfl rfl fun _ _ _ => exec_push_waits b hp)
  | finish =>
    obtain ⟨hp, rfl⟩ | ⟨hp, rfl⟩ := execFinish_next hx
    · exact .inl (.silent rfl rfl rfl fun _ _ _ => exec_finish_waits hp)
    · refine .inr (.accepted [] rfl rfl (by simp) fun cmds turns resp => ?_)
      rw [exec_finish_of_phase (s := s.withPorts cmds turns resp) hp, List.append_nil]
      rfl
  | read a =>
    obtain ⟨hp, rfl⟩ | ⟨hp, ha, rfl⟩ := execRead_next hx
    · exact .inl (.silent rfl rfl rfl fun _ _ _ => exec_read_waits hp)
    · exact .inr (.accepted _ rfl rfl rfl fun cmds turns resp =>
        exec_read_of_phase (s := s.withPorts cmds turns resp) hp ha)
  | stat =>
    cases hx
    exact .inr (.accepted _ rfl rfl rfl fun _ _ _ => rfl)
  | reset => exact absurd rfl hreset
  | pad1 | pad2 | ldw | exp | initw | round | acc => cases hi

end Exec

/-! ## Shadows -/

/-- `c` is the engine of `s` with no turn listed and the `STAT` words taken out; the turns of `s` hold no reset and
no withdrawal, and its words are not reserved. -/
structure Shadows (s c : State) : Prop where
  undisturbed : s.undisturbed
  noReserved : noReserved s.cmds
  engine : c.SameEngine s
  cmds : c.cmds = s.cmds.filter fun w => !isStat w
  turns : c.turns = []

/-- Without `STAT` words the responses are the same, too. -/
def SameResponses (s c : State) : Prop := (∀ w ∈ s.cmds, isStat w = false) ∧ c.resp = s.resp

theorem decode_of_isStat {w : BitVec 12} (h : isStat w = true) : decode (.cmd w) = .ok .stat := by
  have hmask : w &&& 0xF00#12 = 0x500#12 := eq_of_beq h
  have hread : w &&& 0xFE0#12 ≠ 0x400#12 := by
    intro he
    have : w &&& 0xF00#12 = (w &&& 0xFE0#12) &&& 0xF00#12 := by
      rw [BitVec.and_assoc]
      rfl
    rw [hmask, he] at this
    cases this
  simp [decode, decodeCmd, hmask, hread]

section Shadow

variable {s c c' t : State}

theorem noReserved.tail {cmds : List (BitVec 12)} (h : noReserved cmds) : noReserved cmds.tail :=
  fun w hw => h w (List.mem_of_mem_tail hw)

theorem Shadows.endTurn (h : Shadows s c) : Shadows s.endTurn c where
  undisturbed := fun a ha => h.undisturbed a (List.mem_of_mem_tail ha)
  noReserved := h.noReserved
  engine := h.engine
  cmds := h.cmds
  turns := h.turns

/-- How much of `s` is left that its shadow does not have. -/
def State.excess (s : State) : Nat := s.turns.length + s.cmds.length

/-- A step of `s` that its shadow does not take. -/
def Stutters (s c t : State) : Prop :=
  step s = .next t ∧ t.excess < s.excess ∧ Shadows t c ∧ (SameResponses s c → SameResponses t c)

theorem Shadows.stutters_endTurn (h : Shadows s c) (hstep : step s = .next s.endTurn) (hturns : s.turns ≠ []) :
    Stutters s c s.endTurn := by
  refine ⟨hstep, ?_, h.endTurn, id⟩
  have := List.length_pos_of_ne_nil hturns
  simp only [State.excess, State.endTurn_turns, State.endTurn_cmds, List.length_tail]
  omega

/-- `STAT` is taken from the port, and its shadow knows nothing of it. -/
theorem Shadows.stutters_stat (h : Shadows s c) {w : BitVec 12} {ws : List (BitVec 12)} (hturn : s.turnNow = .host)
    (hcmds : s.cmds = w :: ws) (hw : isStat w = true) : ∃ t, Stutters s c t := by
  have hstep := step_host hturn hcmds (decode_of_isStat hw)
  rw [exec_stat] at hstep
  refine ⟨_, hstep, ?_, ?_, fun hresp => ?_⟩
  · simp only [State.excess, State.respond_turns, State.respond_cmds, State.endTurn_turns, State.endTurn_cmds,
      List.length_tail, hcmds, List.length_cons]
    omega
  · exact {
      undisturbed := h.endTurn.undisturbed
      noReserved := h.noReserved.tail
      engine := h.engine
      cmds := by
        rw [h.cmds, hcmds]
        simp [hcmds, hw]
      turns := h.turns }
  · have := hresp.1 w (by simp [hcmds])
    rw [hw] at this
    cases this

/-- A step that both take: the same instruction, on the same engine. -/
theorem Shadows.exec_matches (h : Shadows s c) {k : Nat} {i : Instr} (huniform : PortsUniform k i c c')
    (hdrop : (s.cmds.filter fun w => !isStat w).drop k = (s.cmds.drop k).filter fun w => !isStat w) :
    ∃ t, exec i s.endTurn = .next t ∧ Shadows t c' ∧ (SameResponses s c → SameResponses t c') := by
  obtain ⟨bs, hcmds, hturns, hresp, hexec⟩ := huniform
  have hs : s.endTurn = c.withPorts s.cmds s.turns.tail s.resp := State.SameEngine.eq_with_ports (t := s.endTurn) h.engine
  refine ⟨_, hs ▸ hexec _ _ _, ?_, fun hsame => ⟨fun w hw => hsame.1 w (List.mem_of_mem_drop hw), ?_⟩⟩
  · exact {
      undisturbed := h.endTurn.undisturbed
      noReserved := fun w hw => h.noReserved w (List.mem_of_mem_drop hw)
      engine := c'.sameEngine_ports _ _ _
      cmds := by rw [hcmds, h.cmds, hdrop]; rfl
      turns := hturns.trans h.turns }
  · rw [hresp, hsame.2]
    rfl

theorem turnNow_of_undisturbed (h : s.undisturbed) :
    s.turnNow = .host ∨ s.turnNow = .engine ∨ s.turnNow = .rst 0 := by
  cases hturns : s.turns with
  | nil =>
    rw [turnNow_of_nil hturns]
    split
    · exact .inr (.inl rfl)
    · exact .inl rfl
  | cons a as =>
    rw [turnNow_of_cons hturns]
    exact h a (by simp [hturns])

theorem isStat_of_decode {w : BitVec 12} (h : decode (.cmd w) = .ok .stat) : isStat w = true := by
  change decodeCmd w = _ at h
  unfold decodeCmd at h
  repeat' split at h
  all_goals cases h
  exact beq_iff_eq.2 ‹w &&& 0xF00#12 = 0x500#12›

/-- Each step of the shadow is a step of `s`, or `s` can come nearer to taking it. -/
theorem Shadows.stutters_or_matches (h : Shadows s c) (hstep : step c = .next c') :
    (∃ t, Stutters s c t) ∨
      ∃ t, step s = .next t ∧ Shadows t c' ∧ (SameResponses s c → SameResponses t c') := by
  have hphase : s.PHASE = c.PHASE := h.engine.phase_eq
  have hturnNow (hturns : s.turns = []) : c.turnNow = s.turnNow :=
    State.turnNow_congr hphase.symm (h.turns.trans hturns.symm)
  obtain ⟨hturn, -⟩ | ⟨i, hturn, hi, hs⟩ | ⟨w, ws, i, hturn, hcmds, hd, hs⟩ | ⟨hturn, -⟩ | ⟨hidle, hs⟩ |
    ⟨-, -, w, ws, hcmds, hd⟩ := step_by_turn s
  · obtain h' | h' | h' := turnNow_of_undisturbed h.undisturbed <;> cases hturn.symm.trans h'
  · rw [hphase] at hi
    rw [(step_engine_of_nil h.turns hi).2] at hstep
    obtain ⟨t, ht, hshadow⟩ := h.exec_matches (exec_micro_portsUniform hi hstep) rfl
    exact .inr ⟨t, hs.trans ht, hshadow⟩
  · cases hstat : isStat w with
    | true => exact .inl (h.stutters_stat hturn hcmds hstat)
    | false =>
      obtain ⟨hmicro, hreset⟩ := decode_cmd_ok hd
      cases hb : flagBusy s.PHASE with
      | true =>
        have hne : i ≠ .stat := by
          rintro rfl
          rw [isStat_of_decode hd] at hstat
          cases hstat
        have hturns : s.turns ≠ [] := by
          intro hnil
          rw [turnNow_of_nil hnil, if_pos hb] at hturn
          cases hturn
        rw [exec_command_waits_of_busy (s := s.endTurn) hb hmicro hne hreset] at hs
        exact .inl ⟨_, h.stutters_endTurn hs hturns⟩
      | false =>
        have hc : c.cmds = w :: ws.filter fun w => !isStat w := by simp [h.cmds, hcmds, hstat]
        have hcturn : c.turnNow = .host := by
          rw [turnNow_of_nil h.turns, ← hphase, hb]
          rfl
        rw [step_host hcturn hc hd, endTurn_of_nil h.turns] at hstep
        have hmatch : ∃ t, exec i s.endTurn = .next t ∧ Shadows t c' ∧
            (SameResponses s c → SameResponses t c') := by
          obtain huniform | huniform := exec_command_portsUniform hmicro hreset hstep
          · exact h.exec_matches huniform rfl
          · exact h.exec_matches huniform (by simp [hcmds, hstat])
        obtain ⟨t, ht, hshadow⟩ := hmatch
        exact .inr ⟨t, hs.trans ht, hshadow⟩
  · obtain h' | h' | h' := turnNow_of_undisturbed h.undisturbed <;> cases hturn.symm.trans h'
  · by_cases hturns : s.turns = []
    · have hcidle : c.turnIsIdle := by
        obtain hz | ⟨hhost, hcmds⟩ | ⟨hengine, hb⟩ := hidle
        · exact .inl ((hturnNow hturns).trans hz)
        · exact .inr (.inl ⟨(hturnNow hturns).trans hhost, by rw [h.cmds, hcmds]; rfl⟩)
        · exact .inr (.inr ⟨(hturnNow hturns).trans hengine, hphase ▸ hb⟩)
      rw [step_of_turnIsIdle hcidle, endTurn_of_nil h.turns] at hstep
      cases hstep
      exact .inr ⟨_, hs, h.endTurn, id⟩
    · exact .inl ⟨_, h.stutters_endTurn hs hturns⟩
  · exact absurd hd (h.noReserved w (by simp [hcmds]))

/-- Steps of `s` after which it has taken the step of its shadow. -/
theorem Shadows.run_step (h : Shadows s c) (hstep : step c = .next c') :
    ∃ k t, Host.Core.run Sys2Proof.core k s = .next t ∧ Shadows t c' ∧
      (SameResponses s c → SameResponses t c') ∧ blocksLoaded k s = loadedBy c c' := by
  induction hn : s.excess using Nat.strong_induction_on generalizing s with
  | _ n ih =>
    obtain ⟨u, hu, hless, hshadow, hsame⟩ | ⟨t, ht, hshadow, hsame⟩ := h.stutters_or_matches hstep
    · obtain ⟨k, t, hrun, ht, hsame', hloads⟩ := ih u.excess (hn ▸ hless) hshadow rfl
      have hphase : u.PHASE = s.PHASE := hshadow.engine.phase_eq.trans h.engine.phase_eq.symm
      have hnone : loadedBy s u = [] := by
        by_cases hp : s.PHASE = .loadw
        · exact loadedBy_of_eq hp
        · exact loadedBy_of_ne (hphase ▸ hp)
      refine ⟨k + 1, t, (run_succ_of_step hu k).trans hrun, ht, fun hs => hsame' (hsame hs), ?_⟩
      rw [blocksLoaded_succ_of_step hu, hnone, hloads, List.nil_append]
    · refine ⟨1, t, run_succ_of_step ht 0, hshadow, hsame, ?_⟩
      have hbuf : t.BUF = c'.BUF := hshadow.engine.buf_eq
      rw [blocksLoaded_succ_of_step ht, loadedBy, loadedBy, h.engine.phase_eq, hshadow.engine.phase_eq, hbuf]
      exact List.append_nil _

/-- Steps of `s` after which it has taken the run of its shadow. -/
theorem Shadows.run (h : Shadows s c) {k : Nat} (hrun : Host.Core.run Sys2Proof.core k c = .next c') :
    ∃ k' t, Host.Core.run Sys2Proof.core k' s = .next t ∧ Shadows t c' ∧
      (SameResponses s c → SameResponses t c') ∧ blocksLoaded k' s = blocksLoaded k c := by
  induction k generalizing s c with
  | zero =>
    cases hrun
    exact ⟨0, s, rfl, h, id, rfl⟩
  | succ k ih =>
    obtain ⟨d, hstep, hrun⟩ := exists_step_of_run_succ hrun
    obtain ⟨k₁, u, hu, hshadow, hsame, hloads⟩ := h.run_step hstep
    obtain ⟨k₂, t, ht, hshadow', hsame', hloads'⟩ := ih hshadow hrun
    obtain ⟨hrun', hloads''⟩ := run_add_of_run hu k₂
    refine ⟨k₁ + k₂, t, hrun'.trans ht, hshadow', fun hs => hsame' (hsame hs), ?_⟩
    rw [hloads'', hloads, hloads', blocksLoaded_succ_of_step hstep]

end Shadow

end Sys2Proof.Machine
end

section
/-! What a transaction ends in under any listed turns, and that every busy period ends (spec
44_engine_and_commands.md rules R170, R172, 41_padder.md rule R117). -/

namespace Sys2Proof.Machine

/-- The engine of `s` with no turn listed and the `STAT` words taken out. -/
def State.quiet (s : State) : State := s.withPorts (s.cmds.filter fun w => !isStat w) [] s.resp

theorem State.shadows_quiet {s : State} (hu : s.undisturbed) (hr : noReserved s.cmds) : Shadows s s.quiet where
  undisturbed := hu
  noReserved := hr
  engine := s.quiet.sameEngine_ports _ _ _
  cmds := rfl
  turns := rfl

theorem State.Inv.quiet {s : State} (h : s.Inv) : s.quiet.Inv := h.of_sameEngine (s.sameEngine_ports _ _ _)

/-! ## Busy periods -/

/-- The engine steps that are left of a busy period, and where `TAIL` is not known yet the most there can be. -/
def busyRank (s : State) : Nat :=
  let more := if s.TAIL = .more then 131 else 0
  match s.PHASE with
  | .pad1 => 262
  | .pad2 => 131
  | .loadw => 130 - s.T.toNat + more
  | .expand => 130 - s.T.toNat + more
  | .initw => 66 + more
  | .round => 65 - s.T.toNat + more
  | .accum => 1 + more
  | .idle => 0
  | .absorb => 0
  | .done => 0

/-- What a micro-operation does to `TAIL`: the padder alone writes it. -/
theorem exec_micro_tail {s t : State} {i : Instr} (hi : microPhase i = some s.PHASE) (hx : exec i s = .next t) :
    (s.PHASE = .pad2 → t.TAIL = .last) ∧ (s.PHASE ≠ .pad1 → s.PHASE ≠ .pad2 → t.TAIL = s.TAIL) := by
  have hp {p : Phase} (h : some p = some s.PHASE) : s.PHASE = p := (Option.some.inj h).symm
  cases i with
  | pad1 => simp [hp hi]
  | pad2 =>
    cases (exec_pad2_of_phase (hp hi)).symm.trans hx
    simp [hp hi]
  | ldw =>
    obtain ⟨-, -, -, -, -, htail⟩ := exec_scheduler_frame (.inl rfl) hx
    simp [hp hi, htail]
  | exp =>
    obtain ⟨-, -, -, -, -, htail⟩ := exec_scheduler_frame (.inr rfl) hx
    simp [hp hi, htail]
  | initw =>
    obtain ⟨-, -, -, htail⟩ := exec_compressor_frame (.inl rfl) hx
    simp [hp hi, htail]
  | round =>
    obtain ⟨-, -, -, htail⟩ := exec_compressor_frame (.inr (.inl rfl)) hx
    simp [hp hi, htail]
  | acc =>
    obtain ⟨-, -, -, htail⟩ := exec_compressor_frame (.inr (.inr rfl)) hx
    simp [hp hi, htail]
  | start | push | finish | read | stat | reset => cases hi

/-- Each edge that the engine can follow lowers the rank. -/
theorem exec_micro_busyRank {s t : State} {i : Instr} (hi : microPhase i = some s.PHASE)
    (hx : exec i s = .next t) : busyRank t < busyRank s := by
  have hedge := exec_micro_edge hi hx
  obtain ⟨hpad2, htail⟩ := exec_micro_tail hi hx
  have hbusy := (busy_of_microPhase hi).1
  have hmore : (if t.TAIL = .more then 131 else 0) ≤ 131 := by split <;> omega
  have hidle (h : flagBusy s.PHASE = false) : busyRank t < busyRank s := nomatch h.symm.trans hbusy
  rcases hedge with ⟨hp, -⟩ | ⟨hp, -⟩ | ⟨hp, -⟩ | ⟨hp, hp', hT'⟩ | ⟨hp, hp', hT'⟩ | ⟨hp, hT, hp', hT'⟩ |
    ⟨hp, hT, hp', hT'⟩ | ⟨hp, -, hT, hp', hT'⟩ | ⟨hp, hT, hp', hT'⟩ | ⟨hp, hp', hT'⟩ | ⟨hp, hT, hp', hT'⟩ |
    ⟨hp, hT, hp', hT'⟩ | ⟨hp, hk, hp', hT'⟩ | ⟨hp, hk, hp', hT'⟩ | ⟨hp, hk, hp', hT'⟩
  · exact hidle (by simpa [startEnabled_eq_not_flagBusy] using hp)
  · exact hidle (by rw [hp]; rfl)
  · exact hidle (by rw [hp]; rfl)
  · simp only [busyRank, hp, hp', hT']
    omega
  · simp only [busyRank, hp, hp', hT', hpad2 hp]
    decide
  all_goals
    have htail := htail (by simp [hp]) (by simp [hp])
    simp only [busyRank, hp, hp', htail]
  · omega
  · rw [hT, hT']
    simp
  · omega
  · rw [hT]
    simp
  · rw [hT']
    simp
  · omega
  · rw [hT]
    simp
  · omega
  · simp [hk]
  · omega

/-- With no turn listed the engine runs until it is not busy. -/
theorem State.Inv.exists_run_not_busy {s : State} (h : s.Inv) (hturns : s.turns = []) :
    ∃ k t, Host.Core.run Sys2Proof.core k s = .next t ∧ flagBusy t.PHASE = false := by
  induction hn : busyRank s using Nat.strong_induction_on generalizing s with
  | _ n ih =>
    cases hb : flagBusy s.PHASE with
    | false => exact ⟨0, s, rfl, hb⟩
    | true =>
      obtain ⟨i, hi⟩ := exists_microPhase_of_busy hb
      obtain ⟨t, ht⟩ := h.exec_next i
      have hstep : step s = .next t := (step_engine_of_nil hturns hi).2.trans ht
      have hturns' : t.turns = [] := by
        obtain ⟨-, -, hframe, -⟩ := exec_micro_frame (busy_of_microPhase hi).2 ht
        exact hframe.trans hturns
      obtain ⟨k, u, hrun, hu⟩ := ih _ (hn ▸ exec_micro_busyRank hi ht) (exec_keeps_inv h ht) hturns' rfl
      exact ⟨k + 1, u, (run_succ_of_step hstep k).trans hrun, hu⟩

/-- Settles O42: the run with no turn listed leaves the busy phases, and the listed turns only delay it. -/
theorem busyPeriodsEnd : Obligations.BusyPeriodsEnd := by
  intro s h hu hr _
  obtain ⟨k, c, hrun, hc⟩ := h.quiet.exists_run_not_busy rfl
  obtain ⟨k', t, hrun', hshadow, -, -⟩ := (State.shadows_quiet hu hr).run hrun
  exact ⟨k', t, hrun', hshadow.engine.phase_eq ▸ hc⟩

/-! ## The transaction -/

theorem decode_of_mem_transaction {M : List Byte} {w : BitVec 12} (hw : w ∈ transaction M) :
    ∃ i, decode (.cmd w) = .ok i ∧ i ≠ .stat := by
  simp only [transaction, List.mem_cons, List.mem_append, List.mem_map, List.not_mem_nil, or_false] at hw
  obtain rfl | ⟨b, -, rfl⟩ | rfl := hw
  · exact ⟨.start, rfl, by simp⟩
  · exact ⟨.push b, decode_pushWord b, by simp⟩
  · exact ⟨.finish, rfl, by simp⟩

theorem decode_of_mem_readAll {w : BitVec 12} (hw : w ∈ readAll) : ∃ i, decode (.cmd w) = .ok i ∧ i ≠ .stat := by
  obtain ⟨i, hi, rfl⟩ := List.mem_map.1 hw
  exact ⟨_, decode_readWord (List.mem_range.1 hi), by simp⟩

theorem isStat_eq_false_of_decode {w : BitVec 12} {i : Instr} (hd : decode (.cmd w) = .ok i) (hi : i ≠ .stat) :
    isStat w = false := by
  rw [Bool.eq_false_iff]
  intro hw
  cases (decode_of_isStat hw).symm.trans hd
  exact hi rfl

/-- Words that are accepted commands, with `STAT` words among them. -/
theorem noReserved_of_filter {cmds : List (BitVec 12)}
    (h : ∀ w ∈ cmds.filter fun w => !isStat w, ∃ i, decode (.cmd w) = .ok i ∧ i ≠ .stat) : noReserved cmds := by
  intro w hw hr
  cases hstat : isStat w with
  | true => cases (decode_of_isStat hstat).symm.trans hr
  | false =>
    obtain ⟨i, hi, -⟩ := h w (List.mem_filter.2 ⟨hw, by simp [hstat]⟩)
    cases hi.symm.trans hr

section

variable {s : State} {M : List Byte} {rest : List (BitVec 12)}

/-- The transaction with no turn listed, as a run. -/
theorem transaction_run (h : s.Inv) (hb : flagBusy s.PHASE = false) (hturns : s.turns = [])
    (hcmds : s.cmds = transaction M ++ rest) :
    ∃ k u, Host.Core.run Sys2Proof.core k s = .next u ∧ blocksLoaded k s = blocksOf M ∧
      Digested M rest s.resp u := by
  obtain ⟨t, u, ms, -, hstep, hload, hpath, hu, -⟩ := transaction_path h hb hturns hcmds
  refine ⟨ms.length + 1, u, ?_, ?_, hu⟩
  · rw [run_succ_of_step hstep, hpath.run_eq]
  · rw [blocksLoaded_succ_of_step hstep, hload, hpath.blocksLoaded_eq, List.nil_append]

/-- The state of `READALL` after `k` bytes. -/
def reading (s : State) (v : Regs8) (k : Nat) : State :=
  s.withPorts (readAll.drop k) [] (s.resp ++ (ser v).take k)

theorem step_reading {v : Regs8} (hp : s.PHASE = .done) (hS : s.S = some v) {k : Nat} (hk : k < 32) :
    step (reading s v k) = .next (reading s v (k + 1)) := by
  have hturn : (reading s v k).turnNow = .host := by
    rw [turnNow_of_nil rfl, show (reading s v k).PHASE = .done from hp]
    rfl
  have hcmds : (reading s v k).cmds = readWord k :: readAll.drop (k + 1) := by
    have hlen : k < readAll.length := by simpa [readAll] using hk
    change readAll.drop k = _
    rw [List.drop_eq_getElem_cons hlen]
    simp [readAll]
  have hi : (BitVec.ofNat 8 k).toNat = k := by
    rw [BitVec.toNat_ofNat]
    omega
  have htake : (ser v).take (k + 1) = (ser v).take k ++ [digestByte v k] := by
    rw [List.take_add_one, ser_getElem? v hk]
    rfl
  rw [step_host hturn hcmds (decode_readWord hk), endTurn_of_nil rfl,
    exec_read_of_phase (s := reading s v k) hp (by rw [hi]; omega), hi, readS_of_some (s := reading s v k) hS]
  simp only [State.respond, hcmds, List.tail_cons]
  simp only [reading, State.withPorts, htake, List.append_assoc]

/-- `READALL` delivers the 32 bytes of `S`. -/
theorem readAll_run {v : Regs8} (hp : s.PHASE = .done) (hS : s.S = some v) (hcmds : s.cmds = readAll)
    (hturns : s.turns = []) : ∃ u, Host.Core.run Sys2Proof.core 32 s = .next u ∧ u.PHASE = .done ∧ u.cmds = [] ∧
      u.resp = s.resp ++ ser v := by
  have hrun := run_of_steps (reading s v) 32 fun k hk => step_reading hp hS hk
  have hstart : reading s v 0 = s := by
    rw [reading, List.drop_zero, List.take_zero, List.append_nil, ← hcmds, ← hturns]
    rfl
  rw [hstart] at hrun
  refine ⟨_, hrun, hp, rfl, ?_⟩
  change s.resp ++ (ser v).take 32 = _
  rw [List.take_of_length_le (ser_length v).le]

theorem Shadows.cmds_eq_nil {t c : State} (h : Shadows t c) (hsame : SameResponses t c) (hc : c.cmds = []) :
    t.cmds = [] := by
  rw [← hc, h.cmds, List.filter_eq_self.2 fun w hw => by simp [hsame.1 w hw]]

/-- Commands without `STAT` are those of the shadow. -/
theorem State.quiet_cmds_of_no_stat (h : ∀ w ∈ s.cmds, ∃ i, decode (.cmd w) = .ok i ∧ i ≠ .stat) :
    s.quiet.cmds = s.cmds ∧ SameResponses s s.quiet ∧ noReserved s.cmds := by
  have hstat : ∀ w ∈ s.cmds, isStat w = false := fun w hw => by
    obtain ⟨i, hd, hi⟩ := h w hw
    exact isStat_eq_false_of_decode hd hi
  refine ⟨List.filter_eq_self.2 fun w hw => by simp [hstat w hw], ⟨hstat, rfl⟩,
    noReserved_of_filter fun w hw => h w (List.mem_of_mem_filter hw)⟩

end

/-- Settles O57: the run with no turn listed and no `STAT` ends in `DONE` with the digest in `S`, and `s` shadows
it. -/
theorem transactionComputesTheDigest : Obligations.TransactionComputesTheDigest := by
  intro s M h hb _ hu hcmds
  have hr : noReserved s.cmds := noReserved_of_filter fun w hw => decode_of_mem_transaction (hcmds ▸ hw)
  obtain ⟨k, c, hrun, -, hc⟩ := transaction_run (rest := []) h.quiet hb rfl (hcmds.trans (List.append_nil _).symm)
  obtain ⟨k', t, hrun', hshadow, -, -⟩ := (State.shadows_quiet hu hr).run hrun
  exact ⟨k', t, _, hrun', hshadow.engine.phase_eq.trans hc.phase, hshadow.cmds.symm.trans hc.cmds,
    hshadow.engine.chain_eq.trans hc.chain, ser_chainValue M⟩

/-- Settles O59: the blocks are those of the run with no turn listed. -/
theorem schedulerSeesThePaddedBlocks : Obligations.SchedulerSeesThePaddedBlocks := by
  intro s M h hb _ hu hcmds
  obtain ⟨hquiet, hsame, hr⟩ := s.quiet_cmds_of_no_stat fun w hw => decode_of_mem_transaction (hcmds ▸ hw)
  obtain ⟨k, c, hrun, hloads, hc⟩ :=
    transaction_run (rest := []) h.quiet hb rfl ((hquiet.trans hcmds).trans (List.append_nil _).symm)
  obtain ⟨k', t, hrun', hshadow, hsame', hloads'⟩ := (State.shadows_quiet hu hr).run hrun
  exact ⟨k', t, hrun', hshadow.engine.phase_eq.trans hc.phase, hshadow.cmds_eq_nil (hsame' hsame) hc.cmds,
    hloads'.trans hloads⟩

/-- Settles O58: the run with no turn listed goes on with `READALL`, and `s` shadows it with the same
responses. -/
theorem transactionDeliversTheDigest : Obligations.TransactionDeliversTheDigest := by
  intro s M h hb _ hu hcmds
  have hwords : ∀ w ∈ s.cmds, ∃ i, decode (.cmd w) = .ok i ∧ i ≠ .stat := by
    intro w hw
    obtain hw | hw := List.mem_append.1 (hcmds ▸ hw)
    · exact decode_of_mem_transaction hw
    · exact decode_of_mem_readAll hw
  obtain ⟨hquiet, hsame, hr⟩ := s.quiet_cmds_of_no_stat hwords
  obtain ⟨k, c, hrun, -, hc⟩ := transaction_run h.quiet hb rfl (hquiet.trans hcmds)
  obtain ⟨d, hread, hd, hdcmds, hdresp⟩ := readAll_run hc.phase hc.chain hc.cmds hc.turns
  obtain ⟨k', t, hrun', hshadow, hsame', -⟩ :=
    (State.shadows_quiet hu hr).run ((run_add_of_run hrun 32).1.trans hread)
  have hresp : d.resp = s.resp ++ digest M := by
    rw [hdresp, hc.resp, ser_chainValue]
    rfl
  exact ⟨k', t, hrun', hshadow.engine.phase_eq.trans hd, hshadow.cmds_eq_nil (hsame' hsame) hdcmds,
    (hsame' hsame).2.symm.trans hresp⟩

end Sys2Proof.Machine
end
